-- ==== Sys2Proof/Word.lean ====
section
/-! DEFINITION. The words of the core: bytes, the 9-bit program counter, and the reduction modulo 2^8.
Spec: 00_scope.md R7, R8, R10, R11; 10_state.md R23. -/

namespace Sys2Proof

/-- An unsigned 8-bit value: a memory cell, a register, the stack pointer, the flags (R7, R8). -/
abbrev Byte := BitVec 8

/-- The program counter, 9 bits, of which 0 to 256 are reachable (10_state.md R23, `PC_BITS`). -/
abbrev Pc := BitVec 9

/-- The number of a general register, 0 to 7 (10_state.md R20). -/
abbrev RegIdx := Fin 8

/-- `u8(v)` is `v mod 256` (00_scope.md R8): pseudocode arithmetic is over naturals and is narrowed here (R10). -/
def u8 (n : Nat) : Byte := BitVec.ofNat 8 n

/-- `zext` of an 8-bit jump target into the 9-bit pc keeps its numeric value (00_scope.md R11). -/
def zextPc (v : Byte) : Pc := BitVec.ofNat 9 v.toNat

end Sys2Proof
end

