-- ==== Sys2Proof/Config.lean ====
section
/-! DEFINITION. The parameters of the core (00_scope.md R7), each with the value the spec gives it, and the one
parameter the spec leaves OPEN, `EXIT_FAULT` (92_eei_decisions.md D7, 93_implementation_defined.md U12). -/

namespace Sys2Proof

/-- The five fatal errors (60_exceptions.md R180). -/
inductive FaultCode where
  | invalidInstruction
  | divisionByZero
  | memoryBounds
  | registerIndex
  | unsupportedAluOperation
  deriving DecidableEq, Repr

namespace Config

/-- `MEM_SIZE`: 256 cells (R7; 20_memory.md R40). -/
def memSize : Nat := 256

/-- `SP_INIT`: the reset value of sp and the empty-stack position (R7; 43_stack.md R152). -/
def spInit : Byte := 0xF3#8

/-- `PC_INIT`: the first instruction is fetched here (R7; 20_memory.md R46). -/
def pcInit : Pc := 0#9

/-- `LOAD_BASE`: the loader writes from here upward (R7; 70_reset_and_hazards.md R201). -/
def loadBase : Nat := 0

/-- `HALT_OPCODE` (R7; 40_loop_dispatch.md R82). -/
def haltOpcode : Byte := 0x01#8

/-- What a cell holds that neither the loader nor a push has written (10_state.md R34; 20_memory.md R48). -/
def unwrittenByte : Byte := 0x00#8

/-- `EXIT_OK`: the host's exit status after HLT (R7). -/
def exitOk : Nat := 0

/-- The uninterpreted part of `EXIT_FAULT`: the spec gives no number, only that the status is non-zero, so the
status is one more than an unknown natural (assumption log 6). Nothing in Lean can evaluate it. -/
opaque exitFaultLessOne : FaultCode → Nat

/-- `EXIT_FAULT : FaultCode → Nat`, "required only to be non-zero for every code" (92_eei_decisions.md D7). -/
def exitFault (c : FaultCode) : Nat := exitFaultLessOne c + 1

end Config

end Sys2Proof
end

