-- ==== Sys2Proof/Syntax.lean ====
section
/-! DEFINITION. The instructions of the core, one constructor per row of the opcode map (30_encoding.md R62).
A register operand is the RAW operand byte: it is never masked (R63), and a value above 7 is an instruction that
decodes and then raises RegisterIndexFault when it executes (10_state.md R22). Bytes the format marks "fetched,
ignored" are no part of an instruction (R65). -/

namespace Sys2Proof

inductive Instr where
  /-- HLT (40_loop_dispatch.md R83) -/
  | hlt
  /-- RET (44_control_flow.md R162) -/
  | ret
  /-- PUSH Ra (43_stack.md R150) -/
  | push (a : Byte)
  /-- POP Ra (43_stack.md R152) -/
  | pop (a : Byte)
  /-- PRN Ra (42_data_io.md R142) -/
  | prn (a : Byte)
  /-- CALL Ra (44_control_flow.md R160) -/
  | call (a : Byte)
  /-- JMP Ra (44_control_flow.md R164) -/
  | jmp (a : Byte)
  /-- JEQ Ra (44_control_flow.md R166) -/
  | jeq (a : Byte)
  /-- JNE Ra (44_control_flow.md R168) -/
  | jne (a : Byte)
  /-- NOT Ra (41_alu.md R114) -/
  | not (a : Byte)
  /-- LDI Ra, imm (42_data_io.md R140) -/
  | ldi (a imm : Byte)
  /-- ADD Ra, Rb (41_alu.md R100) -/
  | add (a b : Byte)
  /-- MUL Ra, Rb (41_alu.md R102) -/
  | mul (a b : Byte)
  /-- MOD Ra, Rb (41_alu.md R104) -/
  | mod (a b : Byte)
  /-- CMP Ra, Rb (41_alu.md R118) -/
  | cmp (a b : Byte)
  /-- AND Ra, Rb (41_alu.md R108) -/
  | and (a b : Byte)
  /-- OR Ra, Rb (41_alu.md R110) -/
  | or (a b : Byte)
  /-- XOR Ra, Rb (41_alu.md R112) -/
  | xor (a b : Byte)
  /-- SHL Ra, Rb (41_alu.md R116) -/
  | shl (a b : Byte)
  /-- SHR Ra, Rb (41_alu.md R117) -/
  | shr (a b : Byte)
  deriving DecidableEq, Repr

/-- The operand byte `a` where the format gives it a register meaning: R, RR and RI (30_encoding.md R63). -/
def Instr.regA : Instr → Option Byte
  | .hlt | .ret => none
  | .push a | .pop a | .prn a | .call a | .jmp a | .jeq a | .jne a | .not a => some a
  | .ldi a _ => some a
  | .add a _ | .mul a _ | .mod a _ | .cmp a _ | .and a _ | .or a _ | .xor a _ | .shl a _ | .shr a _ => some a

/-- The operand byte `b` where the format gives it a register meaning: RR only (30_encoding.md R63). -/
def Instr.regB : Instr → Option Byte
  | .hlt | .ret => none
  | .push _ | .pop _ | .prn _ | .call _ | .jmp _ | .jeq _ | .jne _ | .not _ => none
  | .ldi _ _ => none
  | .add _ b | .mul _ b | .mod _ b | .cmp _ b | .and _ b | .or _ b | .xor _ b | .shl _ b | .shr _ b => some b

end Sys2Proof
end

