-- ==== Sys2Proof/WellFormed.lean ====
section
/-! DEFINITION. Well-formed instructions: every register operand names one of the eight registers
(10_state.md R22; 30_encoding.md R63). An instruction that is not well formed still decodes and encodes, and
executing it raises RegisterIndexFault (60_exceptions.md R180). -/

namespace Sys2Proof

/-- An operand byte that selects a register: an index in [0, 7] (10_state.md R22). -/
def regByteOk (i : Byte) : Bool := decide (i.toNat ≤ 7)

/-- Both register operands, where the format has them, are in range. The immediate of LDI is any byte
(30_encoding.md R64). -/
def Instr.wellFormed (i : Instr) : Bool :=
  (i.regA.all regByteOk) && (i.regB.all regByteOk)

end Sys2Proof
end

