-- ==== Sys2Proof/Decode.lean ====
section
/-! DEFINITION. The encoding of the 20 instructions (30_encoding.md): formats, opcodes, the decoder over the
3-byte fetch window, the encoder, and the assembler spelling. Decoding is an exact match of byte 0 against the
opcode map (R66); every other byte 0 is rejected by name (R67). -/

namespace Sys2Proof

/-- The four formats (30_encoding.md R60). -/
inductive Format where
  | z
  | r
  | rr
  | ri
  deriving DecidableEq, Repr

/-- Length in bytes: 1 + the operand bytes the handler consumes (R60, R61). -/
def Format.length : Format → Nat
  | .z => 1
  | .r => 2
  | .rr => 3
  | .ri => 3

/-- The format column of the opcode map (R62). -/
def Instr.format : Instr → Format
  | .hlt | .ret => .z
  | .push _ | .pop _ | .prn _ | .call _ | .jmp _ | .jeq _ | .jne _ | .not _ => .r
  | .ldi _ _ => .ri
  | .add _ _ | .mul _ _ | .mod _ _ | .cmp _ _ | .and _ _ | .or _ _ | .xor _ _ | .shl _ _ | .shr _ _ => .rr

/-- The length column of the opcode map (R61, R62). -/
def Instr.length (i : Instr) : Nat := i.format.length

/-- Why the decoder rejects. -/
inductive DecodeError where
  /-- Byte 0 is none of the 20 opcodes (R67). -/
  | invalidOpcode (opcode : Byte)
  /-- Fewer than the 3 bytes a fetch always reads (R60). No step raises this: a fetch reads three bytes or faults. -/
  | shortWindow
  deriving DecidableEq, Repr

/-- The decoder over the fetched window op0, op1, op2 (30_encoding.md R60, R62, R66). Operand bytes are taken whole
(R63, R64); the bytes a format does not use are dropped whatever they hold (R65). -/
def decodeWindow (op0 op1 op2 : Byte) : Except DecodeError Instr :=
  match op0 with
  | 0x01#8 => .ok .hlt
  | 0x11#8 => .ok .ret
  | 0x45#8 => .ok (.push op1)
  | 0x46#8 => .ok (.pop op1)
  | 0x47#8 => .ok (.prn op1)
  | 0x50#8 => .ok (.call op1)
  | 0x54#8 => .ok (.jmp op1)
  | 0x55#8 => .ok (.jeq op1)
  | 0x56#8 => .ok (.jne op1)
  | 0x69#8 => .ok (.not op1)
  | 0x82#8 => .ok (.ldi op1 op2)
  | 0xA0#8 => .ok (.add op1 op2)
  | 0xA2#8 => .ok (.mul op1 op2)
  | 0xA4#8 => .ok (.mod op1 op2)
  | 0xA7#8 => .ok (.cmp op1 op2)
  | 0xA8#8 => .ok (.and op1 op2)
  | 0xAA#8 => .ok (.or op1 op2)
  | 0xAB#8 => .ok (.xor op1 op2)
  | 0xAC#8 => .ok (.shl op1 op2)
  | 0xAD#8 => .ok (.shr op1 op2)
  | _ => .error (.invalidOpcode op0)

/-- The decoder on any list of bytes: the first three are the window. -/
def decode : List Byte → Except DecodeError Instr
  | op0 :: op1 :: op2 :: _ => decodeWindow op0 op1 op2
  | _ => .error .shortWindow

/-- The opcode column of the opcode map (R62). -/
def Instr.opcode : Instr → Byte
  | .hlt => 0x01#8
  | .ret => 0x11#8
  | .push _ => 0x45#8
  | .pop _ => 0x46#8
  | .prn _ => 0x47#8
  | .call _ => 0x50#8
  | .jmp _ => 0x54#8
  | .jeq _ => 0x55#8
  | .jne _ => 0x56#8
  | .not _ => 0x69#8
  | .ldi _ _ => 0x82#8
  | .add _ _ => 0xA0#8
  | .mul _ _ => 0xA2#8
  | .mod _ _ => 0xA4#8
  | .cmp _ _ => 0xA7#8
  | .and _ _ => 0xA8#8
  | .or _ _ => 0xAA#8
  | .xor _ _ => 0xAB#8
  | .shl _ _ => 0xAC#8
  | .shr _ _ => 0xAD#8

/-- The operand bytes of an instruction, in increasing address order (R60). -/
def Instr.operandBytes : Instr → List Byte
  | .hlt | .ret => []
  | .push a | .pop a | .prn a | .call a | .jmp a | .jeq a | .jne a | .not a => [a]
  | .ldi a imm => [a, imm]
  | .add a b | .mul a b | .mod a b | .cmp a b | .and a b | .or a b | .xor a b | .shl a b | .shr a b => [a, b]

/-- The bytes of an instruction, opcode first, at consecutive addresses (R60, R62). -/
def encode (i : Instr) : List Byte := i.opcode :: i.operandBytes

/-- Byte k of a table word: bits 8k+7 down to 8k of the low `nbits` bits, every bit above them 0. -/
def tableByte (nbits w k : Nat) : Byte := u8 (w % 2 ^ nbits / 2 ^ (8 * k))

/-- The 3-byte window an instruction word of the opcode table stands for: byte 0 is bits 7..0, at the lowest address. -/
def tableWindow (nbits w : Nat) : List Byte := [tableByte nbits w 0, tableByte nbits w 1, tableByte nbits w 2]

/-- The instruction the decoder reads from an opcode-table word. -/
def decodeTableWord (nbits w : Nat) : Option Instr := (decode (tableWindow nbits w)).toOption

/-- The mnemonic column of the opcode map (R62). -/
def Instr.mnemonic : Instr → String
  | .hlt => "HLT"
  | .ret => "RET"
  | .push _ => "PUSH"
  | .pop _ => "POP"
  | .prn _ => "PRN"
  | .call _ => "CALL"
  | .jmp _ => "JMP"
  | .jeq _ => "JEQ"
  | .jne _ => "JNE"
  | .not _ => "NOT"
  | .ldi _ _ => "LDI"
  | .add _ _ => "ADD"
  | .mul _ _ => "MUL"
  | .mod _ _ => "MOD"
  | .cmp _ _ => "CMP"
  | .and _ _ => "AND"
  | .or _ _ => "OR"
  | .xor _ _ => "XOR"
  | .shl _ _ => "SHL"
  | .shr _ _ => "SHR"

/-- `R0` to `R7`; an index above 7 has no spelling in the assembly syntax (30_encoding.md R71, R72). -/
def regName (i : Byte) : Option String :=
  ["R0", "R1", "R2", "R3", "R4", "R5", "R6", "R7"][i.toNat]?

/-- The assembly statement of an instruction, `imm` in decimal (30_encoding.md R71). -/
def Instr.asm (i : Instr) : Option String :=
  match i.format, i.operandBytes with
  | .z, _ => some i.mnemonic
  | .r, [a] => (regName a).map fun ra => i.mnemonic ++ " " ++ ra
  | .rr, [a, b] => (regName a).bind fun ra => (regName b).map fun rb => i.mnemonic ++ " " ++ ra ++ ", " ++ rb
  | .ri, [a, imm] => (regName a).map fun ra => i.mnemonic ++ " " ++ ra ++ ", " ++ Nat.repr imm.toNat
  | _, _ => none

end Sys2Proof
end

