-- ==== Sys2Proof/Machine/State.lean ====
section
/-! DEFINITION. The state of the core as plain data, its value at reset, and the names a step can stop under.
Spec: 10_state.md R20-R34; 60_exceptions.md R180; 70_reset_and_hazards.md R200. -/

namespace Sys2Proof.Machine

/-- Which operand byte an out-of-range register index stood in (60_exceptions.md R180, code 4). -/
inductive OperandSlot where
  | a
  | b
  deriving DecidableEq, Repr

/-- The fault record: code and info, each with the pc of the faulting instruction (10_state.md R31;
60_exceptions.md R180). -/
inductive FaultRecord where
  /-- Code 1: byte 0 is no opcode. Info: the opcode byte. Raised by the loop (40_loop_dispatch.md R84). -/
  | invalidInstruction (opcode : Byte) (pc : Pc)
  /-- Code 2: MOD with a zero divisor. Info: the register index b (41_alu.md R106). -/
  | divisionByZero (b : Byte) (pc : Pc)
  /-- Code 3: an address above 255. Info: the address (20_memory.md R42; 40_loop_dispatch.md R81). -/
  | memoryBounds (addr : Nat) (pc : Pc)
  /-- Code 4: a register index above 7. Info: the index byte and which operand it is (10_state.md R22). -/
  | registerIndex (index : Byte) (operand : OperandSlot) (pc : Pc)
  /-- Code 5: an ALU request for an operation that does not exist. Info: the operation's name (assumption log 11).
  No byte sequence reaches it (40_loop_dispatch.md R88). -/
  | unsupportedAluOperation (operation : String) (pc : Pc)
  deriving DecidableEq, Repr

/-- The run state (10_state.md R29): a status the host observes, not a register. -/
inductive RunState where
  | running
  | halted
  | faulted (record : FaultRecord)
  deriving DecidableEq, Repr

/-- Memory: the listed cells of the 256-byte array, addresses strictly rising, no entry equal to what an unlisted
address reads as. `Memory.wf` (Ops.lean) is that form. -/
abbrev Memory := List Host.Cell

/-- The machine state, the one record of 10_state.md. -/
structure State where
  /-- the 256-byte memory (20_memory.md R40) -/
  mem : Memory
  /-- the general registers x[0..7] (10_state.md R20) -/
  regs : Vector Byte 8
  /-- the program counter (R23) -/
  pc : Pc
  /-- the stack pointer, a register of its own (R25) -/
  sp : Byte
  /-- the flags register (R26) -/
  fl : Byte
  /-- the output channel, oldest value first (R30) -/
  out : List Byte
  /-- Running, Halted or Faulted with its record (R29, R31) -/
  run : RunState
  deriving DecidableEq, Repr

/-- Why no next state exists. Both stops are the spec's: "No step is enabled from either" (00_scope.md R13). The
five fatal errors of 60_exceptions.md are NOT here: the machine takes them as next states (R183). -/
inductive Fault where
  /-- Raised by `step` in the Halted state. Safe: the spec enables no step there (assumption log 8). -/
  | alreadyHalted
  /-- Raised by `step` in the Faulted state; carries the record. Safe: the spec enables no step there (log 8). -/
  | alreadyFaulted (record : FaultRecord)
  deriving DecidableEq, Repr

/-- What the model gives no meaning. -/
inductive Refusal where
  /-- An instruction without a meaning. Raised by no arm of `exec`: every opcode has its meaning. Safe. -/
  | notModelled (mnemonic : String)
  /-- Raised by the loader for an image of more than 256 bytes: "the launch is refused and no run exists"
  (93_implementation_defined.md U18, 92_eei_decisions.md D11). Safe. -/
  | imageTooLong (size : Nat)
  /-- Raised by a Load that is not the first transaction: "the design does not support concurrent loading and execution"
  (70_reset_and_hazards.md R202, R207; assumption log 20). Safe: no state changes. -/
  | loadOutOfOrder
  /-- Raised by a Start before the Load, or a second one: "once, after Load" (70_reset_and_hazards.md R207). Safe. -/
  | startOutOfOrder
  /-- Raised by a step of a session that has not started: loading "must complete before `run()` begins"
  (70_reset_and_hazards.md R202, 40_loop_dispatch.md R90). Safe. -/
  | stepBeforeStart
  deriving DecidableEq, Repr

/-- The outcome of one instruction or one step. -/
abbrev Result := Host.Outcome State Fault Refusal

/-- The state after construction (10_state.md R34; 70_reset_and_hazards.md R200). Every value is the spec's. -/
def State.reset : State where
  mem := []
  regs := Vector.replicate 8 0x00#8
  pc := Config.pcInit
  sp := Config.spInit
  fl := 0x00#8
  out := []
  run := .running

end Sys2Proof.Machine
end

