-- ==== Sys2Proof/Machine/Ops.lean ====
section
/-! DEFINITION. The named operations over memory, registers, pc, sp, output and run state, the checks that raise a
fatal error, and taking a fatal error. Spec: 00_scope.md R9; 20_memory.md R42; 43_stack.md R156; 60_exceptions.md R183. -/

namespace Sys2Proof.Machine

/-! ### Memory as data. DESIGN CHOICE: a canonical list of the cells that differ from 0x00 (log 10) -/

/-- The byte the list holds at an address; an unlisted address reads as `Config.unwrittenByte` (10_state.md R34). -/
def Memory.read : Memory → Nat → Byte
  | [], _ => Config.unwrittenByte
  | c :: rest, a => if c.1 = a then c.2 else Memory.read rest a

/-- Drop the entry at an address. -/
def Memory.erase (m : Memory) (a : Nat) : Memory := m.filter fun c => c.1 ≠ a

/-- Put an entry before the first one with a higher address. -/
def Memory.insert : Memory → Nat → Byte → Memory
  | [], a, v => [(a, v)]
  | c :: rest, a, v => if a < c.1 then (a, v) :: c :: rest else c :: Memory.insert rest a v

/-- Set the byte at an address, keeping the canonical form: the value of an unwritten cell is not listed. -/
def Memory.write (m : Memory) (a : Nat) (v : Byte) : Memory :=
  if v = Config.unwrittenByte then Memory.erase m a else Memory.insert (Memory.erase m a) a v

/-- Write consecutive bytes upward from an address, in order (70_reset_and_hazards.md R201). -/
def Memory.writeFrom (m : Memory) (a : Nat) : List Byte → Memory
  | [] => m
  | v :: rest => Memory.writeFrom (Memory.write m a v) (a + 1) rest

/-- The canonical form: addresses strictly rising, every address in the 256-byte array, no entry that equals what an
unlisted address reads as. -/
abbrev Memory.wf (m : Memory) : Prop :=
  m.Pairwise (fun c d => c.1 < d.1) ∧ ∀ c ∈ m, c.1 < Config.memSize ∧ c.2 ≠ Config.unwrittenByte

/-! ### Plain updates of the state -/

/-- `x[r]` (00_scope.md R9). -/
def State.reg (s : State) (r : RegIdx) : Byte := s.regs[r.val]

/-- `x[r] <- v` (00_scope.md R9). -/
def State.setReg (s : State) (r : RegIdx) (v : Byte) : State := { s with regs := s.regs.set r.val v }

/-- `pc <- t` for an 8-bit target (00_scope.md R11; 44_control_flow.md R170). -/
def State.jump (s : State) (target : Byte) : State := { s with pc := zextPc target }

/-- `pc <- pc + len`, the default advance (10_state.md R24). DESIGN CHOICE: modulo 512 where no run comes (log 1). -/
def State.advance (s : State) (len : Nat) : State := { s with pc := s.pc + BitVec.ofNat 9 len }

/-- `sp <- v` (00_scope.md R9). -/
def State.setSp (s : State) (v : Byte) : State := { s with sp := v }

/-- `fl <- v`, the whole register (41_alu.md R118). -/
def State.setFl (s : State) (v : Byte) : State := { s with fl := v }

/-- `emit(v)`: append to the output channel (00_scope.md R9; 10_state.md R30). UNVERIFIED: the spec's D10 (log 15). -/
def State.emit (s : State) (v : Byte) : State := { s with out := s.out ++ [v] }

/-- The memory array replaced. -/
def State.setMem (s : State) (m : Memory) : State := { s with mem := m }

/-- `halt`: the Halted state (00_scope.md R9; 40_loop_dispatch.md R83). -/
def State.halt (s : State) : State := { s with run := .halted }

/-- Fault entry: "It sets run <- Faulted(code, info)" and "writes nothing else" (60_exceptions.md R183). There is no
return from a fault (R186). -/
def State.enterFault (s : State) (f : FaultRecord) : State := { s with run := .faulted f }

/-! ### Checks, and taking a fatal error -/

/-- A computation that may raise a fatal error before anything is written. -/
abbrev Check (α : Type) := Except FaultRecord α

/-- Taking a fatal error: a next state, with `run` Faulted and everything else as before the step
(60_exceptions.md R183). -/
def takeFault (f : FaultRecord) (s : State) : Result := .next (s.enterFault f)

/-- A handler either completes or raises a fault "before any write" (40_loop_dispatch.md R85; 60_exceptions.md R184):
what a raising handler had computed is dropped, and the fault is taken in the state before the step. -/
def complete (s : State) : Check State → Result
  | .ok t => .next t
  | .error f => takeFault f s

/-- `MemRead(a, 1)` (20_memory.md R42). -/
def memRead (a : Nat) (s : State) : Check Byte :=
  if a < Config.memSize then .ok (Memory.read s.mem a) else .error (.memoryBounds a s.pc)

/-- `MemWrite(a, 1, v)` (20_memory.md R42). -/
def memWrite (a : Nat) (v : Byte) (s : State) : Check State :=
  if a < Config.memSize then .ok (s.setMem (Memory.write s.mem a v)) else .error (.memoryBounds a s.pc)

/-! ### The stack -/

/-- Push one byte: decrement sp modulo 256, then write at the new sp (43_stack.md R150, R156). UNVERIFIED: the wrap is the
spec's decision D3 (log 2). -/
def pushByte (v : Byte) (s : State) : Check State :=
  let lower := s.setSp (s.sp - 1)
  memWrite lower.sp.toNat v lower

/-- The byte on top of the stack (43_stack.md R152; 44_control_flow.md R162). -/
def topByte (s : State) : Check Byte := memRead s.sp.toNat s

/-- RET's increment of sp: always, modulo 256 (44_control_flow.md R162). UNVERIFIED: the wrap is the spec's D3 (log 2). -/
def raiseSp (s : State) : State := s.setSp (s.sp + 1)

/-- POP's increment of sp: not at the empty position `SP_INIT` (43_stack.md R152). UNVERIFIED: that the position is a
constant is the spec's D13 (log 16). -/
def raiseSpUnlessEmpty (s : State) : State := if s.sp = Config.spInit then s else raiseSp s

/-! ### Fetch -/

/-- The three bytes latched for one step (10_state.md R33). -/
structure Window where
  op0 : Byte
  op1 : Byte
  op2 : Byte
  deriving DecidableEq, Repr

/-- Fetch: the bytes at pc, pc+1 and pc+2, in that order, always all three; the first address above 255 raises
(40_loop_dispatch.md R80, R81). The addresses are naturals and do not wrap (10_state.md R23). UNVERIFIED: the spec's
decisions D8 and D16 (log 7). -/
def fetch (s : State) : Check Window := do
  let op0 ← memRead s.pc.toNat s
  let op1 ← memRead (s.pc.toNat + 1) s
  let op2 ← memRead (s.pc.toNat + 2) s
  pure { op0 := op0, op1 := op1, op2 := op2 }

/-! ### The fault record's parts -/

/-- The code of a fault record (60_exceptions.md R180). -/
def FaultRecord.code : FaultRecord → FaultCode
  | .invalidInstruction _ _ => .invalidInstruction
  | .divisionByZero _ _ => .divisionByZero
  | .memoryBounds _ _ => .memoryBounds
  | .registerIndex _ _ _ => .registerIndex
  | .unsupportedAluOperation _ _ => .unsupportedAluOperation

/-- The pc of the faulting instruction, in every record (10_state.md R31). -/
def FaultRecord.pc : FaultRecord → Pc
  | .invalidInstruction _ pc => pc
  | .divisionByZero _ pc => pc
  | .memoryBounds _ pc => pc
  | .registerIndex _ _ pc => pc
  | .unsupportedAluOperation _ pc => pc

/-- The numeric codes 1 to 5 (60_exceptions.md R180; the numbers are the spec's own, D7). -/
def faultNumber : FaultCode → Nat
  | .invalidInstruction => 1
  | .divisionByZero => 2
  | .memoryBounds => 3
  | .registerIndex => 4
  | .unsupportedAluOperation => 5

end Sys2Proof.Machine
end

