-- ==== Sys2Proof/Machine/Flags.lean ====
section
/-! DEFINITION. The flags register: the value CMP writes and the one flag JEQ and JNE read.
Spec: 10_state.md R26-R28; 41_alu.md R118. UNVERIFIED: the bit positions are the spec's decision D4 (assumption log 3). -/

namespace Sys2Proof.Machine

/-- E alone: bit 0 (10_state.md R26). -/
def flagE : Byte := 0b00000001#8

/-- G alone: bit 1 (10_state.md R26). -/
def flagG : Byte := 0b00000010#8

/-- L alone: bit 2 (10_state.md R26). -/
def flagL : Byte := 0b00000100#8

/-- What CMP writes to fl for the operands x and y, compared as unsigned values (41_alu.md R118). -/
def compareFlags (x y : Byte) : Byte :=
  if x.toNat > y.toNat then flagG else if x.toNat < y.toNat then flagL else flagE

/-- `fl.E` (10_state.md R26). -/
def State.isE (s : State) : Bool := s.fl.getLsbD 0

/-- `fl.G` (10_state.md R26); no instruction reads it (R27). -/
def State.isG (s : State) : Bool := s.fl.getLsbD 1

/-- `fl.L` (10_state.md R26); no instruction reads it (R27). -/
def State.isL (s : State) : Bool := s.fl.getLsbD 2

end Sys2Proof.Machine
end

