-- ==== Sys2Proof/Machine/Operands.lean ====
section
/-! DEFINITION. The operand forms: a register index byte with its check, in the formats R, RR and RI. An immediate
(RI) is the byte itself (30_encoding.md R64). Spec: 00_scope.md R9 (`checkReg`), 30_encoding.md R63, 10_state.md R22. -/

namespace Sys2Proof.Machine

/-- `checkReg(i)`: an index in [0, 7] selects that register; an index above 7 raises RegisterIndexFault and is never
reduced modulo 8 (10_state.md R22). -/
def checkReg (slot : OperandSlot) (i : Byte) (s : State) : Check RegIdx :=
  if h : i.toNat < 8 then .ok ⟨i.toNat, h⟩ else .error (.registerIndex i slot s.pc)

/-- Format RR: operand a is checked first, then operand b (60_exceptions.md R184). UNVERIFIED: the spec's decisions D5 and
D8 (log 4). -/
def checkRegs (a b : Byte) (s : State) : Check (RegIdx × RegIdx) := do
  let ra ← checkReg .a a s
  let rb ← checkReg .b b s
  pure (ra, rb)

end Sys2Proof.Machine
end

