-- ==== Sys2Proof/Machine/Alu.lean ====
section
/-! DEFINITION. The ALU instructions (41_alu.md): ADD, MUL, MOD, AND, OR, XOR, NOT, SHL, SHR, CMP. -/

namespace Sys2Proof.Machine

/-! ### The operations on values -/

/-- 41_alu.md R100: `u8(x + y)`. -/
def aluAdd (x y : Byte) : Byte := u8 (x.toNat + y.toNat)

/-- 41_alu.md R102: `u8(x * y)`, the low 8 bits of the 16-bit product. -/
def aluMul (x y : Byte) : Byte := u8 (x.toNat * y.toNat)

/-- 41_alu.md R104: the unsigned remainder, for a divisor that is not 0. -/
def aluMod (x y : Byte) : Byte := u8 (x.toNat % y.toNat)

/-- 41_alu.md R108. -/
def aluAnd (x y : Byte) : Byte := x &&& y

/-- 41_alu.md R110. -/
def aluOr (x y : Byte) : Byte := x ||| y

/-- 41_alu.md R112. -/
def aluXor (x y : Byte) : Byte := x ^^^ y

/-- 41_alu.md R114: `0xFF - x`. -/
def aluNot (x : Byte) : Byte := u8 (0xFF - x.toNat)

/-- 41_alu.md R116: `u8(x * 2^n)`, n the whole 8-bit count. UNVERIFIED: the spec's decisions D6 and D15 (log 5). -/
def aluShl (x n : Byte) : Byte := u8 (x.toNat * 2 ^ n.toNat)

/-- 41_alu.md R117: `floor(x / 2^n)`, n the whole 8-bit count. UNVERIFIED: the spec's decisions D6 and D15 (log 5). -/
def aluShr (x n : Byte) : Byte := u8 (x.toNat / 2 ^ n.toNat)

/-! ### The shape of a register-to-register instruction -/

/-- Format RR with a result: both checks, `x[a] <- f x[a] x[b]`, `pc <- pc + 3` (41_alu.md R120). -/
def aluBinary (f : Byte → Byte → Byte) (a b : Byte) (s : State) : Result :=
  complete s do
    let (ra, rb) ← checkRegs a b s
    pure ((s.setReg ra (f (s.reg ra) (s.reg rb))).advance 3)

/-! ### The instructions -/

/-- ADD (41_alu.md R100). -/
def execAdd (a b : Byte) (s : State) : Result := aluBinary aluAdd a b s

/-- MUL (41_alu.md R102). -/
def execMul (a b : Byte) (s : State) : Result := aluBinary aluMul a b s

/-- MOD (41_alu.md R104, R106): the zero test comes after both index checks and before any write. -/
def execMod (a b : Byte) (s : State) : Result :=
  complete s do
    let (ra, rb) ← checkRegs a b s
    if s.reg rb = 0 then .error (.divisionByZero b s.pc)
    else pure ((s.setReg ra (aluMod (s.reg ra) (s.reg rb))).advance 3)

/-- AND (41_alu.md R108). -/
def execAnd (a b : Byte) (s : State) : Result := aluBinary aluAnd a b s

/-- OR (41_alu.md R110). -/
def execOr (a b : Byte) (s : State) : Result := aluBinary aluOr a b s

/-- XOR (41_alu.md R112). -/
def execXor (a b : Byte) (s : State) : Result := aluBinary aluXor a b s

/-- NOT (41_alu.md R114): format R, so no second operand and `pc <- pc + 2`. UNVERIFIED: the spec's decision D14 (log 14). -/
def execNot (a : Byte) (s : State) : Result :=
  complete s do
    let ra ← checkReg .a a s
    pure ((s.setReg ra (aluNot (s.reg ra))).advance 2)

/-- SHL (41_alu.md R116). -/
def execShl (a b : Byte) (s : State) : Result := aluBinary aluShl a b s

/-- SHR (41_alu.md R117). -/
def execShr (a b : Byte) (s : State) : Result := aluBinary aluShr a b s

/-- CMP (41_alu.md R118, R119): writes all of fl and no register. -/
def execCmp (a b : Byte) (s : State) : Result :=
  complete s do
    let (ra, rb) ← checkRegs a b s
    pure ((s.setFl (compareFlags (s.reg ra) (s.reg rb))).advance 3)

end Sys2Proof.Machine
end

