-- ==== Sys2Proof/Machine/Control.lean ====
section
/-! DEFINITION. Control flow (44_control_flow.md): CALL, RET, JMP, JEQ, JNE; and HLT (40_loop_dispatch.md R83). A
redirecting handler does not also apply the default advance (10_state.md R24). -/

namespace Sys2Proof.Machine

/-- HLT (40_loop_dispatch.md R82, R83): pc stays at the HLT's own address. -/
def execHlt (s : State) : Result := .next s.halt

/-- CALL (44_control_flow.md R160): push the address of the next instruction, one byte, then jump. Where the fetch
succeeded pc ≤ 253, so the byte is pc + 2 exactly; DESIGN CHOICE elsewhere (assumption log 1). -/
def execCall (a : Byte) (s : State) : Result :=
  complete s do
    let ra ← checkReg .a a s
    let target := s.reg ra
    let t ← pushByte (u8 (s.pc.toNat + 2)) s
    pure (t.jump target)

/-- RET (44_control_flow.md R162): sp is always raised, with no special case at `SP_INIT`. -/
def execRet (s : State) : Result :=
  complete s do
    let v ← topByte s
    pure ((raiseSp s).jump v)

/-- JMP (44_control_flow.md R164). -/
def execJmp (a : Byte) (s : State) : Result :=
  complete s do
    let ra ← checkReg .a a s
    pure (s.jump (s.reg ra))

/-- JEQ (44_control_flow.md R166): the index is checked whether or not the branch is taken. -/
def execJeq (a : Byte) (s : State) : Result :=
  complete s do
    let ra ← checkReg .a a s
    pure (if s.isE then s.jump (s.reg ra) else s.advance 2)

/-- JNE (44_control_flow.md R168): the index is checked whether or not the branch is taken. -/
def execJne (a : Byte) (s : State) : Result :=
  complete s do
    let ra ← checkReg .a a s
    pure (if s.isE then s.advance 2 else s.jump (s.reg ra))

end Sys2Proof.Machine
end

