-- ==== Sys2Proof/Machine/DataIo.lean ====
section
/-! DEFINITION. Data movement and output (42_data_io.md): LDI and PRN. -/

namespace Sys2Proof.Machine

/-- LDI (42_data_io.md R140): the immediate is stored exactly; it is never checked as a register index. -/
def execLdi (a imm : Byte) (s : State) : Result :=
  complete s do
    let ra ← checkReg .a a s
    pure ((s.setReg ra imm).advance 3)

/-- PRN (42_data_io.md R142): append the 8-bit value of x[a] to the output channel. -/
def execPrn (a : Byte) (s : State) : Result :=
  complete s do
    let ra ← checkReg .a a s
    pure ((s.emit (s.reg ra)).advance 2)

end Sys2Proof.Machine
end

