-- ==== Sys2Proof/Machine/Stack.lean ====
section
/-! DEFINITION. The stack instructions (43_stack.md): PUSH and POP. -/

namespace Sys2Proof.Machine

/-- PUSH (43_stack.md R150). -/
def execPush (a : Byte) (s : State) : Result :=
  complete s do
    let ra ← checkReg .a a s
    let t ← pushByte (s.reg ra) s
    pure (t.advance 2)

/-- POP (43_stack.md R152): the read is done even at the empty position; only the increment is left out there. -/
def execPop (a : Byte) (s : State) : Result :=
  complete s do
    let ra ← checkReg .a a s
    let v ← topByte s
    pure ((raiseSpUnlessEmpty (s.setReg ra v)).advance 2)

end Sys2Proof.Machine
end

