-- ==== Sys2Proof/Machine/Loop.lean ====
section
/-! DEFINITION. One turn of the execution loop (40_loop_dispatch.md R80-R86), and a run of it (R89). -/

namespace Sys2Proof.Machine

/-- Dispatch of a fetched window: a byte 0 that is no opcode raises InvalidInstructionFault (R84); otherwise the handler
runs (R85). HLT's own test of R82 is the decoder's first line, and its handler is `execHlt`. -/
def dispatchWindow (w : Window) (s : State) : Result :=
  match decodeWindow w.op0 w.op1 w.op2 with
  | .ok i => exec i s
  | .error _ => takeFault (.invalidInstruction w.op0 s.pc) s

/-- Fetch, then dispatch; a fetch that raises is taken as its fault (R81, R86). -/
def fetchAndExecute (s : State) : Result :=
  match fetch s with
  | .ok w => dispatchWindow w s
  | .error f => takeFault f s

/-- One step. It "requires s.run = Running" (R86): no step is enabled from Halted or Faulted (00_scope.md R13).
DESIGN CHOICE: the outcome answered there, and that only this test looks at run (log 8, 9). -/
def loopStep (s : State) : Result :=
  match s.run with
  | .running => fetchAndExecute s
  | .halted => .fault .alreadyHalted
  | .faulted f => .fault (.alreadyFaulted f)

/-- At most n steps of the loop, which stops when no step is enabled (R89). -/
def runFor : Nat → State → State
  | 0, s => s
  | n + 1, s =>
    match loopStep s with
    | .next t => runFor n t
    | _ => s

end Sys2Proof.Machine
end

