-- ==== Sys2Proof/Machine/HostLink.lean ====
section
/-! DEFINITION. The core's interface to its host (70_reset_and_hazards.md R200-R202, R207): construction, load and start in their one order,
then output, status and final state. -/

namespace Sys2Proof.Machine

/-! ### The order of a launch: construction, then loading, then the run -/

/-- How far one machine instance has come (70_reset_and_hazards.md R202). Only a started session holds a state of its own: before the run
every field is at its construction value, but for the memory a loaded session holds (R201). -/
inductive Session where
  /-- constructed (R200); nothing is loaded -/
  | constructed
  /-- the image is in memory; the run has not begun -/
  | loaded (mem : Memory)
  /-- the run has begun: it goes on, or has ended Halted or Faulted -/
  | started (s : State)
  deriving DecidableEq, Repr

/-- The machine state of a session. -/
def Session.state : Session → State
  | .constructed => State.reset
  | .loaded mem => { State.reset with mem := mem }
  | .started s => s

/-- The outcome of one transaction. -/
abbrev SessionResult := Host.Outcome Session Fault Refusal

/-- Load (R201, R207): the image goes to mem[0..n-1] in order, and nothing else is written; an image of more than 256 bytes is refused
(92_eei_decisions.md D11, log 13). It is the transaction after construction and has no other place (R202; log 20). -/
def load (img : List Byte) : Session → SessionResult
  | .constructed =>
    if img.length ≤ Config.memSize then .next (.loaded (Memory.writeFrom State.reset.mem Config.loadBase img))
    else .refused (.imageTooLong img.length)
  | .loaded _ => .refused .loadOutOfOrder
  | .started _ => .refused .loadOutOfOrder

/-- Start (R207): "once, after Load"; run = Running, and steps begin at the pc of construction, which is 0. -/
def start : Session → SessionResult
  | .constructed => .refused .startOutOfOrder
  | .loaded mem => .next (.started { State.reset with mem := mem, run := .running })
  | .started _ => .refused .startOutOfOrder

/-- One step of the core within a session (40_loop_dispatch.md R86, R89): enabled only once the run has begun (R90, R202). -/
def sessionStep : Session → SessionResult
  | .constructed => .refused .stepBeforeStart
  | .loaded _ => .refused .stepBeforeStart
  | .started s =>
    match loopStep s with
    | .next t => .next (.started t)
    | .fault f => .fault f
    | .refused r => .refused r

/-- Everything that can change a session: the host's two moves (R207) and the core's own step. The host has no other, so it
neither writes state during a run nor stops one. -/
inductive Transaction where
  | load (img : List Byte)
  | start
  | step
  deriving DecidableEq, Repr

/-- One transaction. -/
def transact : Transaction → Session → SessionResult
  | .load img => load img
  | .start => start
  | .step => sessionStep

/-- The transactions one after the other, up to the first that is not allowed. -/
def transactAll : List Transaction → Session → SessionResult
  | [], x => .next x
  | m :: rest, x =>
    match transact m x with
    | .next y => transactAll rest y
    | .fault f => .fault f
    | .refused r => .refused r

/-! ### What the host observes -/

/-- Status as the host gets it at the end of a run (R207): the exit number, and after a fault its diagnostic info, which is the fault
record with its code, its info and the faulting pc (60_exceptions.md R180, R182; 10_state.md R31). -/
structure Status where
  exit : Nat
  diagnostic : Option FaultRecord
  deriving DecidableEq, Repr

/-- Status (R207; 60_exceptions.md R182): none while running, 0 after HLT, and EXIT_FAULT of the code with the record after a fault. -/
def status (s : State) : Option Status :=
  match s.run with
  | .running => none
  | .halted => some { exit := Config.exitOk, diagnostic := none }
  | .faulted f => some { exit := Config.exitFault f.code, diagnostic := some f }

/-- The exit number of the status. -/
def exitStatus (s : State) : Option Nat := (status s).map (·.exit)

/-- Output (R207; 42_data_io.md R142): the emitted values in program order. -/
def output (s : State) : List Byte := s.out

/-- What the host may read once the run has ended (92_eei_decisions.md D18). -/
structure FinalState where
  mem : Memory
  regs : Vector Byte 8
  pc : Pc
  sp : Byte
  fl : Byte
  deriving DecidableEq, Repr

/-- Final state (R207): readable after Halted or Faulted, not before. -/
def finalState (s : State) : Option FinalState :=
  match s.run with
  | .running => none
  | _ => some { mem := s.mem, regs := s.regs, pc := s.pc, sp := s.sp, fl := s.fl }

/-! ### A table word placed for the next step -/

/-- The three bytes of a table word placed where the next step fetches them. The fetch needs a running core and a pc
of at most 253; where the state has neither, they are set (DESIGN CHOICE, assumption log 12). No transaction of a session. -/
def placeWindow (s : State) (window : List Byte) : State :=
  let pc := if s.pc.toNat ≤ 253 then s.pc else Config.pcInit
  { s with mem := Memory.writeFrom s.mem pc.toNat window, pc := pc, run := .running }

end Sys2Proof.Machine
end

