-- ==== Sys2Proof/Machine/Step.lean ====
section
/-! DEFINITION. The step of the machine, and a table word placed where it fetches. Both only call Loop.lean and
HostLink.lean. -/

namespace Sys2Proof.Machine

/-- One step of the core (40_loop_dispatch.md R86). -/
def step (s : State) : Host.Outcome State Fault Refusal := loopStep s

/-- The state whose next step fetches the given opcode-table word, every bit above `nbits` zero. -/
def State.withFetchWord (s : State) (nbits w : Nat) : State := placeWindow s (tableWindow nbits w)

end Sys2Proof.Machine
end

