-- ==== Sys2Proof/Safety.lean ====
section
/-! DEFINITION. The terms claims are stated in: the invariant every step keeps, what a fault record says is true, the
frames, the opcode map's classes, and the order of checks of 60_exceptions.md R184 as a function of its own. -/

namespace Sys2Proof

/-- The operand byte that selects a register (10_state.md R22). Its values are exactly the bytes 0 to 7. -/
def regByte (r : RegIdx) : Byte := BitVec.ofNat 8 r.val

/-- The 20 opcodes, as the opcode map lists them (30_encoding.md R62). -/
def opcodeList : List Byte :=
  [0x01#8, 0x11#8, 0x45#8, 0x46#8, 0x47#8, 0x50#8, 0x54#8, 0x55#8, 0x56#8, 0x69#8,
   0x82#8, 0xA0#8, 0xA2#8, 0xA4#8, 0xA7#8, 0xA8#8, 0xAA#8, 0xAB#8, 0xAC#8, 0xAD#8]

/-- The instructions whose operand a names a register they write: LDI, the ALU operations but CMP, and POP
(10_state.md R21). -/
def Instr.writesRegA : Instr → Bool
  | .hlt | .ret | .push _ | .prn _ | .call _ | .jmp _ | .jeq _ | .jne _ | .cmp _ _ => false
  | .pop _ | .not _ | .ldi _ _ => true
  | .add _ _ | .mul _ _ | .mod _ _ | .and _ _ | .or _ _ | .xor _ _ | .shl _ _ | .shr _ _ => true

/-- The operand bytes of the registers an instruction reads (10_state.md R21): both for an ALU operation (a alone for
NOT), a for PRN, PUSH, CALL, JMP, JEQ and JNE, none for HLT, RET, LDI and POP. -/
def Instr.readRegs : Instr → List Byte
  | .hlt | .ret | .pop _ | .ldi _ _ => []
  | .push a | .prn a | .call a | .jmp a | .jeq a | .jne a | .not a => [a]
  | .add a b | .mul a b | .mod a b | .cmp a b | .and a b | .or a b | .xor a b | .shl a b | .shr a b => [a, b]

/-- The instructions that write sp (10_state.md R25). -/
def Instr.writesSp : Instr → Bool
  | .push _ | .pop _ | .call _ | .ret => true
  | .hlt | .prn _ | .jmp _ | .jeq _ | .jne _ | .not _ | .ldi _ _ => false
  | .add _ _ | .mul _ _ | .mod _ _ | .cmp _ _ | .and _ _ | .or _ _ | .xor _ _ | .shl _ _ | .shr _ _ => false

/-- The instructions that write memory: PUSH and CALL (20_memory.md R41, R52). -/
def Instr.writesMem : Instr → Bool
  | .push _ | .call _ => true
  | .hlt | .ret | .pop _ | .prn _ | .jmp _ | .jeq _ | .jne _ | .not _ | .ldi _ _ => false
  | .add _ _ | .mul _ _ | .mod _ _ | .cmp _ _ | .and _ _ | .or _ _ | .xor _ _ | .shl _ _ | .shr _ _ => false

/-- CMP, the one instruction that writes fl (10_state.md R27). -/
def Instr.isCmp : Instr → Bool
  | .cmp _ _ => true
  | _ => false

namespace Machine

/-- The byte at an address: memory is read through this in every claim. -/
def State.byteAt (s : State) (addr : Nat) : Byte := Memory.read s.mem addr

/-- A running core whose three fetch addresses are in range, so that a fetch succeeds (40_loop_dispatch.md R81). -/
abbrev State.Ready (s : State) : Prop := s.run = .running ∧ s.pc.toNat ≤ 253

/-! ### Frames -/

/-- No general register changes. -/
def KeepsRegs (s t : State) : Prop := ∀ r : RegIdx, t.reg r = s.reg r

/-- No general register but x[a] changes. -/
def KeepsRegsBut (a : RegIdx) (s t : State) : Prop := ∀ r : RegIdx, r ≠ a → t.reg r = s.reg r

/-- No byte of memory changes. -/
def KeepsMem (s t : State) : Prop := ∀ addr : Nat, t.byteAt addr = s.byteAt addr

/-- No byte of memory but the one at `cell` changes. -/
def KeepsMemBut (cell : Nat) (s t : State) : Prop := ∀ addr : Nat, addr ≠ cell → t.byteAt addr = s.byteAt addr

/-- pc moved past an instruction of `len` bytes, over naturals (10_state.md R24). Said of every pc an executed
instruction can have: its fetch succeeded, so pc ≤ 253 (40_loop_dispatch.md R81), and the sum never wraps. -/
def AdvancesPc (len : Nat) (s t : State) : Prop := s.pc.toNat ≤ 253 → t.pc.toNat = s.pc.toNat + len

/-- The frame of an instruction that writes x[a] and pc and nothing else. -/
def OnlyRegAndPc (a : RegIdx) (s t : State) : Prop :=
  KeepsRegsBut a s t ∧ KeepsMem s t ∧ t.sp = s.sp ∧ t.fl = s.fl ∧ t.out = s.out ∧ t.run = s.run

/-- The frame of an instruction that writes pc and nothing else. -/
def OnlyPc (s t : State) : Prop :=
  KeepsRegs s t ∧ KeepsMem s t ∧ t.sp = s.sp ∧ t.fl = s.fl ∧ t.out = s.out ∧ t.run = s.run

/-! ### The rule of one register operand, and of two -/

/-- An index byte above 7 in operand a faults with nothing else changed, whatever the rest of the instruction
(10_state.md R22). -/
def FaultsOnBadA (mk : Byte → Instr) : Prop :=
  ∀ (a : Byte) (s : State), 7 < a.toNat → exec (mk a) s = .next { s with run := .faulted (.registerIndex a .a s.pc) }

/-- Format RR with a result: opcode, result, frame, length and index faults of one instruction. `value x y v` says that v
is the result for the operand values x and y. -/
def RegisterPairRule (opcode : Byte) (mk : Byte → Byte → Instr) (value : Byte → Byte → Byte → Prop) : Prop :=
  (∀ op1 op2 : Byte, decodeWindow opcode op1 op2 = .ok (mk op1 op2)) ∧
  (∀ (a b : RegIdx) (s : State), ∃ t, exec (mk (regByte a) (regByte b)) s = .next t ∧
    value (s.reg a) (s.reg b) (t.reg a) ∧ AdvancesPc 3 s t ∧ OnlyRegAndPc a s t) ∧
  (∀ b : Byte, FaultsOnBadA fun a => mk a b) ∧
  (∀ (a b : Byte) (s : State), a.toNat ≤ 7 → 7 < b.toNat →
    exec (mk a b) s = .next { s with run := .faulted (.registerIndex b .b s.pc) })

/-- Whether a control-flow instruction redirects in this state (44_control_flow.md R160-R168). -/
def redirects (s : State) : Instr → Bool
  | .call _ | .ret | .jmp _ => true
  | .jeq _ => s.isE
  | .jne _ => !s.isE
  | .hlt | .push _ | .pop _ | .prn _ | .not _ | .ldi _ _ => false
  | .add _ _ | .mul _ _ | .mod _ _ | .cmp _ _ | .and _ _ | .or _ _ | .xor _ _ | .shl _ _ | .shr _ _ => false

/-! ### The order of the checks -/

/-- The check of one operand byte, as a fault or none (00_scope.md R9). -/
def badIndex (slot : OperandSlot) (s : State) : Option Byte → Option FaultRecord
  | none => none
  | some i => if 7 < i.toNat then some (.registerIndex i slot s.pc) else none

/-- MOD's zero test (41_alu.md R106); reached only when both indices are in range (60_exceptions.md R184). -/
def zeroDivisor (s : State) : Instr → Option FaultRecord
  | .mod _ b => if (s.regs[b.toNat]?).all (· = 0) then some (.divisionByZero b s.pc) else none
  | _ => none

/-- Checks 4, 5 and 6 of 60_exceptions.md R184, in that order: the first that fails. -/
def firstFailure (i : Instr) (s : State) : Option FaultRecord :=
  (badIndex .a s i.regA).orElse fun _ => (badIndex .b s i.regB).orElse fun _ => zeroDivisor s i

/-! ### Executing a list of instructions -/

/-- The instructions executed one after the other, from one state to the next, however pc moves between them. -/
def execAll : List Instr → State → Result
  | [], s => .next s
  | i :: rest, s =>
    match exec i s with
    | .next t => execAll rest t
    | .fault r => .fault r
    | .refused r => .refused r

/-! ### The invariant -/

/-- The byte is that register operand of the instruction (30_encoding.md R63), and the first that can be out of range there: operand b is
checked only where operand a names a register (60_exceptions.md R184). -/
def IsRegisterOperand (i : Instr) (index : Byte) : OperandSlot → Prop
  | .a => i.regA = some index
  | .b => i.regB = some index ∧ ∃ a : RegIdx, i.regA = some (regByte a)

/-- What a fault record says of the state it stands in (60_exceptions.md R180, R183: pc, x, sp, fl and mem are those
before the faulting step). Code 5 is never recorded (40_loop_dispatch.md R88). -/
def FaultCause (s : State) : FaultRecord → Prop
  | .invalidInstruction opcode pc =>
    pc = s.pc ∧ s.pc.toNat ≤ 253 ∧ s.byteAt s.pc.toNat = opcode ∧ opcode ∉ opcodeList
  | .divisionByZero b pc =>
    pc = s.pc ∧ s.pc.toNat ≤ 253 ∧ s.byteAt s.pc.toNat = 0xA4#8 ∧ s.byteAt (s.pc.toNat + 2) = b ∧
      (∃ a : RegIdx, s.byteAt (s.pc.toNat + 1) = regByte a) ∧ ∃ r : RegIdx, b = regByte r ∧ s.reg r = 0
  | .memoryBounds addr pc => pc = s.pc ∧ 253 < s.pc.toNat ∧ addr = max 256 s.pc.toNat
  | .registerIndex index slot pc =>
    pc = s.pc ∧ s.pc.toNat ≤ 253 ∧ 7 < index.toNat ∧
      index = s.byteAt (s.pc.toNat + match slot with | .a => 1 | .b => 2) ∧
      ∃ i : Instr, decodeWindow (s.byteAt s.pc.toNat) (s.byteAt (s.pc.toNat + 1)) (s.byteAt (s.pc.toNat + 2)) = .ok i ∧
        IsRegisterOperand i index slot
  | .unsupportedAluOperation _ _ => False

/-- What every reachable state meets: memory in canonical form, pc in the reachable range (10_state.md R23), fl one of its
four legal values (R26), a Halted core standing on its HLT (40_loop_dispatch.md R83), and a fault record that
tells the truth. -/
structure State.Inv (s : State) : Prop where
  memory : Memory.wf s.mem
  pcRange : s.pc.toNat ≤ 256
  flags : s.fl = 0 ∨ s.fl = flagE ∨ s.fl = flagG ∨ s.fl = flagL
  halted : s.run = .halted → s.pc.toNat ≤ 253 ∧ s.byteAt s.pc.toNat = Config.haltOpcode
  faulted : ∀ f, s.run = .faulted f → FaultCause s f

end Machine

end Sys2Proof
end

