-- ==== Sys2Proof/Certificates/Slice0/Obligations.lean ====
section
/-! DEFINITION. The statements for the provers. Each docstring names the rule of spec/ it formalises; where a clause rests on
a decision the spec marks as its own (D<n> of 92_eei_decisions.md) or on a choice of the model, it says so and names the
assumption log. -/

open Sys2Proof Sys2Proof.Machine

/-! ### Reset and loading -/

/-- 10_state.md section 8, 70_reset_and_hazards.md section 1: the values after construction. That `out` is part of the machine is the spec's
decision D10 (log 15). -/
def Obligations.ResetValues : Prop :=
  (∀ addr : Nat, State.reset.byteAt addr = 0x00#8) ∧ (∀ r : RegIdx, State.reset.reg r = 0x00#8) ∧
    State.reset.pc.toNat = 0 ∧ State.reset.sp = 0xF3#8 ∧ State.reset.fl = 0x00#8 ∧
    State.reset.out = [] ∧ State.reset.run = .running

/-- The invariant holds after reset. -/
def Obligations.ResetMeetsInvariant : Prop := State.Inv State.reset

/-- The invariant is kept by every step, from every state that meets it, reached or not. -/
def Obligations.StepKeepsInvariant : Prop :=
  ∀ s t : State, State.Inv s → step s = .next t → State.Inv t

/-- 70_reset_and_hazards.md section 1, loading a constructed machine: cell i holds img[i] for i < n and every other cell 0x00; every register,
pc, sp, fl, out and run is as after construction; an image longer than memory is refused, which is the spec's decision D11 (log 13). -/
def Obligations.LoadWritesImage : Prop :=
  (∀ img : List Byte, img.length ≤ 256 → ∃ mem : Memory, load img .constructed = .next (.loaded mem) ∧
    (∀ addr : Nat, (Session.loaded mem).state.byteAt addr = (img[addr]?).getD 0x00#8) ∧ Memory.wf mem ∧
    (Session.loaded mem).state = { State.reset with mem := mem }) ∧
  (∀ img : List Byte, 256 < img.length → load img .constructed = .refused (.imageTooLong img.length))

/-- 70_reset_and_hazards.md sections 1 and 4, the place of each transaction: Load after construction and nowhere else; Start once, after the Load, giving a running
core at pc 0; a step only of a started session, where it is the core's step; in a started session nothing else is allowed, so the host can neither
write nor stop a run. The transactions are the spec's decision D1 (log 18), that there is one Load is the model's (log 20). -/
def Obligations.TransactionsHaveOnePlace : Prop :=
  (∀ (img : List Byte) (x : Session), x ≠ .constructed → load img x = .refused .loadOutOfOrder) ∧
  (∀ mem : Memory, ∃ s, start (.loaded mem) = .next (.started s) ∧ s = { State.reset with mem := mem } ∧
    s.run = .running ∧ s.pc.toNat = 0) ∧
  (∀ x : Session, (∀ mem, x ≠ .loaded mem) → start x = .refused .startOutOfOrder) ∧
  (∀ x : Session, (∀ s, x ≠ .started s) → sessionStep x = .refused .stepBeforeStart) ∧
  (∀ (s : State) (m : Transaction) (y : Session), transact m (.started s) = .next y ↔
    m = .step ∧ ∃ t, step s = .next t ∧ y = .started t)

/-- 70_reset_and_hazards.md section 1, "construction, then loading, then the run": whatever transactions a machine has taken from construction, they are a first part of
one Load, one Start and then steps alone, and where the run has begun its state is that of a run of as many steps from the loaded reset state (40_loop_dispatch.md section 4).
That there is one Load is the model's (log 20). -/
def Obligations.EveryLaunchIsLoadStartRun : Prop :=
  ∀ (ms : List Transaction) (x : Session), transactAll ms .constructed = .next x →
    (ms = [] ∧ x = .constructed) ∨
    ∃ img : List Byte, img.length ≤ 256 ∧ ∃ mem : Memory, load img .constructed = .next (.loaded mem) ∧
      ((ms = [.load img] ∧ x = .loaded mem) ∨
        ∃ n : Nat, ms = .load img :: .start :: List.replicate n .step ∧ x = .started (runFor n { State.reset with mem := mem }))

/-! ### Encoding -/

/-- Decode and encode agree on every instruction, whatever its operand bytes and whatever bytes follow it in the window: no
bit of an encoding is dropped, and bytes a format does not use change nothing (30_encoding.md sections 1 to 3; D14 for NOT, log 14). -/
def Obligations.DecodeEncode : Prop :=
  ∀ (i : Instr) (rest : List Byte), 3 ≤ (encode i ++ rest).length → decode (encode i ++ rest) = .ok i

/-- The other direction: what a window decodes to encodes to the bytes the instruction occupies, as many as its length. -/
def Obligations.EncodeDecode : Prop :=
  ∀ (op0 op1 op2 : Byte) (i : Instr), decodeWindow op0 op1 op2 = .ok i → encode i = [op0, op1, op2].take i.length

/-- 30_encoding.md section 4: a window decodes exactly when its byte 0 is one of the 20 opcodes; the rejected bytes are the ranges the
spec lists, and each is rejected by name. -/
def Obligations.OpcodeMapExact : Prop :=
  (∀ op0 op1 op2 : Byte, (∃ i, decodeWindow op0 op1 op2 = .ok i ∧ i.opcode = op0) ↔ op0 ∈ opcodeList) ∧
  (∀ op0 op1 op2 : Byte, op0 ∉ opcodeList → decodeWindow op0 op1 op2 = .error (.invalidOpcode op0)) ∧
  (∀ op0 : Byte, op0 ∉ opcodeList ↔
    (op0.toNat = 0x00 ∨ (0x02 ≤ op0.toNat ∧ op0.toNat ≤ 0x10) ∨ (0x12 ≤ op0.toNat ∧ op0.toNat ≤ 0x44) ∨
      (0x48 ≤ op0.toNat ∧ op0.toNat ≤ 0x4F) ∨ (0x51 ≤ op0.toNat ∧ op0.toNat ≤ 0x53) ∨
      (0x57 ≤ op0.toNat ∧ op0.toNat ≤ 0x68) ∨ (0x6A ≤ op0.toNat ∧ op0.toNat ≤ 0x81) ∨
      (0x83 ≤ op0.toNat ∧ op0.toNat ≤ 0x9F) ∨ op0.toNat = 0xA1 ∨ op0.toNat = 0xA3 ∨
      (0xA5 ≤ op0.toNat ∧ op0.toNat ≤ 0xA6) ∨ op0.toNat = 0xA9 ∨ (0xAE ≤ op0.toNat ∧ op0.toNat ≤ 0xFF)))

/-- Words written out from the spec's encodings decode to the instructions they stand for (30_encoding.md sections 2 and 6; the examples of
41_alu.md to 44_control_flow.md). -/
def Obligations.DecodeSamples : Prop :=
  decode [0xA0#8, 0x00#8, 0x01#8] = .ok (.add 0x00#8 0x01#8) ∧
  decode [0x82#8, 0x02#8, 0x10#8] = .ok (.ldi 0x02#8 0x10#8) ∧
  decode [0x69#8, 0x02#8, 0xFF#8] = .ok (.not 0x02#8) ∧
  decode [0x45#8, 0x01#8, 0x00#8] = .ok (.push 0x01#8) ∧
  decode [0x50#8, 0x01#8, 0x00#8] = .ok (.call 0x01#8) ∧
  decode [0x11#8, 0x00#8, 0x00#8] = .ok .ret ∧
  decode [0x01#8, 0x00#8, 0x00#8] = .ok .hlt ∧
  decode [0x47#8, 0x00#8, 0x00#8] = .ok (.prn 0x00#8)

/-! ### The step -/

/-- 40_loop_dispatch.md section 1: a running core whose window decodes runs that instruction, and the step adds nothing around it. -/
def Obligations.StepRunsDecodedInstruction : Prop :=
  ∀ (s : State) (i : Instr), s.Ready →
    decodeWindow (s.byteAt s.pc.toNat) (s.byteAt (s.pc.toNat + 1)) (s.byteAt (s.pc.toNat + 2)) = .ok i →
    step s = exec i s

/-- 40_loop_dispatch.md section 1, the pseudocode of one step in its order: fetch bounds, HALT test, opcode test, handler. The fetch clause
rests on the spec's decisions D8 and D16 (log 7). -/
def Obligations.StepFollowsPseudocode : Prop :=
  ∀ s : State, s.run = .running →
    (∀ k : Nat, k ≤ 2 → (∀ j : Nat, j < k → s.pc.toNat + j ≤ 255) → 255 < s.pc.toNat + k →
      step s = .next { s with run := .faulted (.memoryBounds (s.pc.toNat + k) s.pc) }) ∧
    (s.pc.toNat + 2 ≤ 255 →
      (s.byteAt s.pc.toNat = 0x01#8 → step s = .next { s with run := .halted }) ∧
      (s.byteAt s.pc.toNat ∉ opcodeList →
        step s = .next { s with run := .faulted (.invalidInstruction (s.byteAt s.pc.toNat) s.pc) }) ∧
      (s.byteAt s.pc.toNat ∈ opcodeList → s.byteAt s.pc.toNat ≠ 0x01#8 → ∃ i : Instr,
        i.opcode = s.byteAt s.pc.toNat ∧
        (∀ k : Nat, 1 ≤ k → k < i.length → (encode i)[k]? = some (s.byteAt (s.pc.toNat + k))) ∧
        step s = exec i s))

/-- 40_loop_dispatch.md section 1: a fetch with pc above 253 takes MemoryBoundsFault at the lowest address above 255, whatever the cells hold.
The spec's decisions D8 and D16 (log 7); pc above 256 is reached by no run (log 1). -/
def Obligations.FetchAboveMemoryFaults : Prop :=
  ∀ s : State, s.run = .running → 253 < s.pc.toNat →
    step s = .next { s with run := .faulted (.memoryBounds (max 256 s.pc.toNat) s.pc) }

/-- 40_loop_dispatch.md R82: HALT. -/
def Obligations.HaltStopsTheCore : Prop :=
  (∀ s : State, s.Ready → s.byteAt s.pc.toNat = 0x01#8 → step s = .next { s with run := .halted }) ∧
  (∀ s : State, exec .hlt s = .next { s with run := .halted })

/-- 40_loop_dispatch.md R84: a byte that is no opcode. -/
def Obligations.InvalidOpcodeFaults : Prop :=
  ∀ s : State, s.Ready → s.byteAt s.pc.toNat ∉ opcodeList → ∃ t, step s = .next t ∧
    t = { s with run := .faulted (.invalidInstruction (s.byteAt s.pc.toNat) s.pc) } ∧
    exitStatus t = some (Config.exitFault .invalidInstruction) ∧ Config.exitFault .invalidInstruction ≠ 0

/-- 00_scope.md section 5 and 40_loop_dispatch.md R81, R82: a step of a running core ends in a running state, the Halted state, or a Faulted state; it
ends Halted exactly when the fetch was in range and read HALT. That a HALT at 254 or 255 faults is the spec's decision D16 (log 7). -/
def Obligations.StepHasThreeOutcomes : Prop :=
  ∀ s : State, s.run = .running → ∃ t, step s = .next t ∧
    (t.run = .running ∨ t.run = .halted ∨ ∃ f, t.run = .faulted f) ∧
    (t.run = .halted ↔ s.pc.toNat ≤ 253 ∧ s.byteAt s.pc.toNat = 0x01#8)

/-- 00_scope.md R13: Halted and Faulted are terminal. (Which named stop the model answers there is its own choice, log 8, and is not
stated.) -/
def Obligations.TerminalStatesHaveNoStep : Prop :=
  ∀ s : State, s.run = .halted ∨ (∃ f, s.run = .faulted f) → (∀ t, step s ≠ .next t) ∧ ∀ n : Nat, runFor n s = s

/-! ### Fatal errors -/

/-- 10_state.md R22: an index up to 7 selects that register; an instruction with an index above 7 takes RegisterIndexFault for such an
operand and changes nothing else. -/
def Obligations.BadRegisterIndexFaults : Prop :=
  (∀ (slot : OperandSlot) (i : Byte) (s : State), i.toNat ≤ 7 → ∃ r : RegIdx, checkReg slot i s = .ok r ∧ r.val = i.toNat) ∧
  (∀ (i : Instr) (s : State), i.wellFormed = false → ∃ (index : Byte) (slot : OperandSlot), 7 < index.toNat ∧
    ((slot = .a ∧ i.regA = some index) ∨ (slot = .b ∧ i.regB = some index)) ∧
    exec i s = .next { s with run := .faulted (.registerIndex index slot s.pc) })

/-- 60_exceptions.md section 2: within an instruction the checks run in the order operand a, operand b, MOD's zero test; the first that
fails is the one fault taken; and where none fails the instruction completes, for every instruction. The order is the spec's decision
D8 and what is checked its decision D5 (log 4). -/
def Obligations.ChecksRunInOrder : Prop :=
  ∀ (i : Instr) (s : State),
    (∀ f, firstFailure i s = some f → exec i s = .next { s with run := .faulted f }) ∧
    (firstFailure i s = none → ∃ t, exec i s = .next t ∧ t.run = if i = .hlt then .halted else s.run)

/-- 60_exceptions.md section 2: a faulting step changes nothing but run. That out keeps its values is the spec's decision D17 (log 15). -/
def Obligations.FaultingStepChangesOnlyRun : Prop :=
  ∀ (s t : State) (f : FaultRecord), step s = .next t → t.run = .faulted f → t = { s with run := .faulted f }

/-- 60_exceptions.md section 1: a recorded fault tells the truth about the state it was raised in, names the pc of the faulting instruction,
and is never code 5 (40_loop_dispatch.md section 2). -/
def Obligations.FaultRecordTellsCause : Prop :=
  ∀ (s t : State) (f : FaultRecord), step s = .next t → t.run = .faulted f →
    FaultCause s f ∧ f.pc = s.pc ∧ f.code ≠ .unsupportedAluOperation

/-- 70_reset_and_hazards.md section 4, status: no status while running, 0 after HLT, and after a fault the non-zero EXIT_FAULT of
its code with the fault's own record; mem, x, pc, sp and fl are readable exactly when the run has ended. That the number of a fault's status is open is the spec's decision D7 (log 6), and that the final
state is readable its decision D18 (log 18). -/
def Obligations.ExitStatusOfTheRun : Prop :=
  ∀ s : State, (s.run = .running → exitStatus s = none) ∧ (s.run = .halted → exitStatus s = some 0) ∧
    (∀ f, s.run = .faulted f → Config.exitFault f.code ≠ 0 ∧ exitStatus s = some (Config.exitFault f.code) ∧
      status s = some { exit := Config.exitFault f.code, diagnostic := some f }) ∧
    (∀ op pc, s.run = .faulted (.invalidInstruction op pc) → exitStatus s = some (Config.exitFault .invalidInstruction)) ∧
    (∀ b pc, s.run = .faulted (.divisionByZero b pc) → exitStatus s = some (Config.exitFault .divisionByZero)) ∧
    (∀ a pc, s.run = .faulted (.memoryBounds a pc) → exitStatus s = some (Config.exitFault .memoryBounds)) ∧
    (∀ i slot pc, s.run = .faulted (.registerIndex i slot pc) → exitStatus s = some (Config.exitFault .registerIndex)) ∧
    (s.run = .halted → status s = some { exit := 0, diagnostic := none }) ∧ (status s = none ↔ s.run = .running) ∧
    (s.run = .running → finalState s = none) ∧
    (s.run ≠ .running → finalState s = some { mem := s.mem, regs := s.regs, pc := s.pc, sp := s.sp, fl := s.fl })

/-! ### The ALU -/

/-- 41_alu.md section 1, ADD. The fetch faults its rule points to are those of FetchAboveMemoryFaults. -/
def Obligations.AddRule : Prop :=
  RegisterPairRule 0xA0#8 .add fun x y v => v.toNat = (x.toNat + y.toNat) % 256

/-- 41_alu.md R102: MUL. -/
def Obligations.MulRule : Prop :=
  RegisterPairRule 0xA2#8 .mul fun x y v => v.toNat = x.toNat * y.toNat % 256

/-- 41_alu.md R104 and R106: MOD and its zero guard. -/
def Obligations.ModRule : Prop :=
  (∀ op1 op2 : Byte, decodeWindow 0xA4#8 op1 op2 = .ok (.mod op1 op2)) ∧
  (∀ (a b : RegIdx) (s : State), s.reg b ≠ 0 → ∃ t, exec (.mod (regByte a) (regByte b)) s = .next t ∧
    (t.reg a).toNat = (s.reg a).toNat % (s.reg b).toNat ∧ AdvancesPc 3 s t ∧ OnlyRegAndPc a s t) ∧
  (∀ (a b : RegIdx) (s : State), s.reg b = 0 → ∃ t, exec (.mod (regByte a) (regByte b)) s = .next t ∧
    t = { s with run := .faulted (.divisionByZero (regByte b) s.pc) } ∧
    exitStatus t = some (Config.exitFault .divisionByZero) ∧ Config.exitFault .divisionByZero ≠ 0) ∧
  (∀ b : Byte, FaultsOnBadA fun a => .mod a b) ∧
  (∀ (a b : Byte) (s : State), a.toNat ≤ 7 → 7 < b.toNat →
    exec (.mod a b) s = .next { s with run := .faulted (.registerIndex b .b s.pc) })

/-- 41_alu.md R108: AND, bit by bit. -/
def Obligations.AndRule : Prop :=
  RegisterPairRule 0xA8#8 .and fun x y v => ∀ k : Nat, v.getLsbD k = (x.getLsbD k && y.getLsbD k)

/-- 41_alu.md R110: OR, bit by bit. -/
def Obligations.OrRule : Prop :=
  RegisterPairRule 0xAA#8 .or fun x y v => ∀ k : Nat, v.getLsbD k = (x.getLsbD k || y.getLsbD k)

/-- 41_alu.md R112: XOR, bit by bit. -/
def Obligations.XorRule : Prop :=
  RegisterPairRule 0xAB#8 .xor fun x y v => ∀ k : Nat, v.getLsbD k = (x.getLsbD k ^^ y.getLsbD k)

/-- 41_alu.md section 2, NOT: every bit of x[a] complemented, which is 0xFF - x[a]; byte b is ignored and the length is 2, the spec's
decision D14 (log 14). -/
def Obligations.NotRule : Prop :=
  (∀ op1 op2 : Byte, decodeWindow 0x69#8 op1 op2 = .ok (.not op1)) ∧
  (∀ (a : RegIdx) (s : State), ∃ t, exec (.not (regByte a)) s = .next t ∧
    (∀ k : Nat, k < 8 → (t.reg a).getLsbD k = !(s.reg a).getLsbD k) ∧
    (t.reg a).toNat = 0xFF - (s.reg a).toNat ∧ AdvancesPc 2 s t ∧ OnlyRegAndPc a s t) ∧
  FaultsOnBadA .not

/-- 41_alu.md section 3, SHL: bit k of the result is bit k - n of the value, and 0 below n; the count n is the whole of x[b] (the spec's
decisions D6 and D15, log 5). -/
def Obligations.ShlRule : Prop :=
  RegisterPairRule 0xAC#8 .shl fun x n v =>
    (∀ k : Nat, k < 8 → v.getLsbD k = (decide (n.toNat ≤ k) && x.getLsbD (k - n.toNat))) ∧ (8 ≤ n.toNat → v = 0)

/-- 41_alu.md section 3, SHR: bit k of the result is bit k + n of the value, 0 beyond bit 7; the count n is the whole of x[b] (the spec's
decisions D6 and D15, log 5). -/
def Obligations.ShrRule : Prop :=
  RegisterPairRule 0xAD#8 .shr fun x n v =>
    (∀ k : Nat, v.getLsbD k = x.getLsbD (k + n.toNat)) ∧ (8 ≤ n.toNat → v = 0)

/-- 41_alu.md section 4, CMP: exactly the flag of the unsigned comparison is set, bits 7:3 are zero, no register changes. The places of the
three flags are the spec's decision D4 (log 3). -/
def Obligations.CmpRule : Prop :=
  (∀ op1 op2 : Byte, decodeWindow 0xA7#8 op1 op2 = .ok (.cmp op1 op2)) ∧
  (∀ (a b : RegIdx) (s : State), ∃ t, exec (.cmp (regByte a) (regByte b)) s = .next t ∧
    t.isE = decide (s.reg a = s.reg b) ∧ t.isG = decide ((s.reg b).toNat < (s.reg a).toNat) ∧
    t.isL = decide ((s.reg a).toNat < (s.reg b).toNat) ∧ t.fl.toNat < 8 ∧ AdvancesPc 3 s t ∧
    KeepsRegs s t ∧ KeepsMem s t ∧ t.sp = s.sp ∧ t.out = s.out ∧ t.run = s.run) ∧
  (∀ b : Byte, FaultsOnBadA fun a => .cmp a b) ∧
  (∀ (a b : Byte) (s : State), a.toNat ≤ 7 → 7 < b.toNat →
    exec (.cmp a b) s = .next { s with run := .faulted (.registerIndex b .b s.pc) })

/-! ### Data movement, output, stack, control flow -/

/-- 42_data_io.md R140: LDI; the immediate is any byte and is never checked. -/
def Obligations.LdiRule : Prop :=
  (∀ op1 op2 : Byte, decodeWindow 0x82#8 op1 op2 = .ok (.ldi op1 op2)) ∧
  (∀ (a : RegIdx) (imm : Byte) (s : State), ∃ t, exec (.ldi (regByte a) imm) s = .next t ∧
    t.reg a = imm ∧ AdvancesPc 3 s t ∧ OnlyRegAndPc a s t) ∧
  (∀ imm : Byte, FaultsOnBadA fun a => .ldi a imm)

/-- 42_data_io.md, PRN: the value of x[a] is appended to the output channel. The channel's form is the spec's decision D10 (log 15). -/
def Obligations.PrnRule : Prop :=
  (∀ op1 op2 : Byte, decodeWindow 0x47#8 op1 op2 = .ok (.prn op1)) ∧
  (∀ (a : RegIdx) (s : State), ∃ t, exec (.prn (regByte a)) s = .next t ∧
    t.out = s.out ++ [s.reg a] ∧ AdvancesPc 2 s t ∧
    KeepsRegs s t ∧ KeepsMem s t ∧ t.sp = s.sp ∧ t.fl = s.fl ∧ t.run = s.run) ∧
  FaultsOnBadA .prn

/-- 43_stack.md, PUSH: sp is lowered by 1 modulo 256 and x[a] is stored at the new sp, and nowhere else. The wrap is the spec's decision
D3 (log 2). -/
def Obligations.PushRule : Prop :=
  (∀ op1 op2 : Byte, decodeWindow 0x45#8 op1 op2 = .ok (.push op1)) ∧
  (∀ (a : RegIdx) (s : State), ∃ t, exec (.push (regByte a)) s = .next t ∧
    t.sp.toNat = (s.sp.toNat + 255) % 256 ∧ t.byteAt (s.sp - 1).toNat = s.reg a ∧ t.sp = s.sp - 1 ∧
    KeepsMemBut (s.sp - 1).toNat s t ∧ AdvancesPc 2 s t ∧
    KeepsRegs s t ∧ t.fl = s.fl ∧ t.out = s.out ∧ t.run = s.run) ∧
  FaultsOnBadA .push

/-- 43_stack.md, POP: x[a] takes the byte at sp, and sp is raised by 1 modulo 256 unless it is 0xF3. The wrap and the constant are the
spec's decisions D3 and D13 (log 2, 16). -/
def Obligations.PopRule : Prop :=
  (∀ op1 op2 : Byte, decodeWindow 0x46#8 op1 op2 = .ok (.pop op1)) ∧
  (∀ (a : RegIdx) (s : State), ∃ t, exec (.pop (regByte a)) s = .next t ∧
    t.reg a = s.byteAt s.sp.toNat ∧
    t.sp.toNat = (if s.sp.toNat = 0xF3 then 0xF3 else (s.sp.toNat + 1) % 256) ∧ AdvancesPc 2 s t ∧
    KeepsRegsBut a s t ∧ KeepsMem s t ∧ t.fl = s.fl ∧ t.out = s.out ∧ t.run = s.run) ∧
  FaultsOnBadA .pop

/-- 44_control_flow.md, CALL: the address of the next instruction is stored at the lowered sp, and pc takes x[a]. The wrap of sp is the
spec's decision D3 (log 2). -/
def Obligations.CallRule : Prop :=
  (∀ op1 op2 : Byte, decodeWindow 0x50#8 op1 op2 = .ok (.call op1)) ∧
  (∀ (a : RegIdx) (s : State), ∃ t, exec (.call (regByte a)) s = .next t ∧
    t.pc.toNat = (s.reg a).toNat ∧ t.sp.toNat = (s.sp.toNat + 255) % 256 ∧
    (s.pc.toNat ≤ 253 → (t.byteAt (s.sp - 1).toNat).toNat = s.pc.toNat + 2) ∧
    KeepsMemBut (s.sp - 1).toNat s t ∧ KeepsRegs s t ∧ t.fl = s.fl ∧ t.out = s.out ∧ t.run = s.run) ∧
  FaultsOnBadA .call

/-- 44_control_flow.md, RET: pc takes the byte at sp, and sp is always raised by 1 modulo 256. The wrap is the spec's decision D3 (log 2). -/
def Obligations.RetRule : Prop :=
  (∀ op1 op2 : Byte, decodeWindow 0x11#8 op1 op2 = .ok .ret) ∧
  (∀ s : State, ∃ t, exec .ret s = .next t ∧
    t.pc.toNat = (s.byteAt s.sp.toNat).toNat ∧ t.sp.toNat = (s.sp.toNat + 1) % 256 ∧
    KeepsMem s t ∧ KeepsRegs s t ∧ t.fl = s.fl ∧ t.out = s.out ∧ t.run = s.run)

/-- 44_control_flow.md, JMP: any 8-bit target is legal; a jump to its own address steps to the same state for ever; after a jump to 254 or 255
the next step takes the fetch fault, which is the spec's decision D16 (log 7). -/
def Obligations.JmpRule : Prop :=
  (∀ op1 op2 : Byte, decodeWindow 0x54#8 op1 op2 = .ok (.jmp op1)) ∧
  (∀ (a : RegIdx) (s : State), ∃ t, exec (.jmp (regByte a)) s = .next t ∧
    t.pc.toNat = (s.reg a).toNat ∧ OnlyPc s t) ∧
  (∀ (a : RegIdx) (s : State) (n : Nat), s.Ready → s.byteAt s.pc.toNat = 0x54#8 → s.byteAt (s.pc.toNat + 1) = regByte a →
    (s.reg a).toNat = s.pc.toNat → runFor n s = s) ∧
  (∀ (a : RegIdx) (s t : State), s.run = .running → 253 < (s.reg a).toNat → exec (.jmp (regByte a)) s = .next t →
    step t = .next { t with run := .faulted (.memoryBounds 256 t.pc) }) ∧
  FaultsOnBadA .jmp

/-- 44_control_flow.md, JEQ: taken exactly when E is set. That the index is checked when it is not taken is the spec's decision D5
(log 4). -/
def Obligations.JeqRule : Prop :=
  (∀ op1 op2 : Byte, decodeWindow 0x55#8 op1 op2 = .ok (.jeq op1)) ∧
  (∀ (a : RegIdx) (s : State), ∃ t, exec (.jeq (regByte a)) s = .next t ∧
    (s.isE = true → t.pc.toNat = (s.reg a).toNat) ∧ (s.isE = false → AdvancesPc 2 s t) ∧ OnlyPc s t) ∧
  FaultsOnBadA .jeq

/-- 44_control_flow.md, JNE: taken exactly when E is clear. That the index is checked when it is not taken is the spec's decision D5
(log 4). -/
def Obligations.JneRule : Prop :=
  (∀ op1 op2 : Byte, decodeWindow 0x56#8 op1 op2 = .ok (.jne op1)) ∧
  (∀ (a : RegIdx) (s : State), ∃ t, exec (.jne (regByte a)) s = .next t ∧
    (s.isE = false → t.pc.toNat = (s.reg a).toNat) ∧ (s.isE = true → AdvancesPc 2 s t) ∧ OnlyPc s t) ∧
  FaultsOnBadA .jne

/-! ### Rules of the whole machine -/

/-- 10_state.md R27: only CMP writes fl, and it writes all of it, whatever fl was; JEQ and JNE read E, which decides between the jump and
the advance; no instruction reads G or L:
changing fl outside E changes nothing an instruction does, but for the bits that stay in fl. -/
def Obligations.OnlyCmpTouchesFlags : Prop :=
  (∀ (i : Instr) (s t : State), i.isCmp = false → exec i s = .next t → t.fl = s.fl) ∧
  (∀ (a b : RegIdx) (s : State) (v : Byte), ∃ t, exec (.cmp (regByte a) (regByte b)) s = .next t ∧
    exec (.cmp (regByte a) (regByte b)) { s with fl := v } = .next t) ∧
  (∀ (a : RegIdx) (s t : State), exec (.jeq (regByte a)) s = .next t →
    (s.isE = true → t.pc.toNat = (s.reg a).toNat) ∧ (s.isE = false → AdvancesPc 2 s t)) ∧
  (∀ (a : RegIdx) (s t : State), exec (.jne (regByte a)) s = .next t →
    (s.isE = false → t.pc.toNat = (s.reg a).toNat) ∧ (s.isE = true → AdvancesPc 2 s t)) ∧
  (∀ (i : Instr) (s : State) (v : Byte), State.isE { s with fl := v } = s.isE → ∃ t u,
    exec i s = .next t ∧ exec i { s with fl := v } = .next u ∧
    (u = { t with fl := v } ∨ (i.isCmp = true ∧ u = t)))

/-- 10_state.md R21: which instructions write a general register, and which read one. Reading is said by comparing two states that differ only in
registers the instruction does not read: every outcome is the same, and each register is either written the same in both or untouched in both. -/
def Obligations.RegisterReadersAndWriters : Prop :=
  (∀ (i : Instr) (s t : State) (r : RegIdx), exec i s = .next t → t.reg r ≠ s.reg r →
    i.writesRegA = true ∧ i.regA = some (regByte r)) ∧
  (∀ (i : Instr) (s s' : State), s' = { s with regs := s'.regs } →
    (∀ r : RegIdx, regByte r ∈ i.readRegs → s'.reg r = s.reg r) → ∃ t t',
      exec i s = .next t ∧ exec i s' = .next t' ∧ t' = { t with regs := t'.regs } ∧
      ∀ r : RegIdx, t'.reg r = t.reg r ∨ (t.reg r = s.reg r ∧ t'.reg r = s'.reg r))

/-- 20_memory.md section 1 and 10_state.md section 3: memory is written by PUSH and CALL alone, at the lowered sp; sp is written by PUSH, POP, CALL
and RET alone. The wrap of the lowered sp is the spec's decision D3 (log 2). -/
def Obligations.MemoryAndSpWriters : Prop :=
  ∀ (i : Instr) (s t : State), exec i s = .next t →
    (∀ addr : Nat, t.byteAt addr ≠ s.byteAt addr → i.writesMem = true ∧ addr = (s.sp - 1).toNat) ∧
    (t.sp ≠ s.sp → i.writesSp = true)

/-- 10_state.md section 6: the output channel is append-only and only PRN appends, one value of a register. The channel's form is the spec's decision
D10 (log 15). -/
def Obligations.OnlyPrnEmits : Prop :=
  ∀ (i : Instr) (s t : State), exec i s = .next t → t.out ≠ s.out →
    ∃ r : RegIdx, i = .prn (regByte r) ∧ t.out = s.out ++ [s.reg r]

/-- 10_state.md section 2: how each instruction leaves pc, over naturals, so that a default advance never wraps: HLT leaves it, a redirecting
instruction sets an 8-bit target, every other advances by its length. pc's width is the spec's decision D2 (log 1). -/
def Obligations.HowEachInstructionLeavesPc : Prop :=
  ∀ (i : Instr) (s t : State), s.pc.toNat ≤ 253 → firstFailure i s = none → exec i s = .next t →
    (i = .hlt → t.pc = s.pc) ∧ (redirects s i = true → t.pc.toNat ≤ 255) ∧
    (i ≠ .hlt → redirects s i = false → t.pc.toNat = s.pc.toNat + i.length)

/-- 43_stack.md, the stack round trip with its exception at sp = 0xF4 (90_conflicts.md C4): derived by the spec from PUSH and POP. -/
def Obligations.StackRoundTrip : Prop :=
  ∀ (r r' : RegIdx) (s : State), ∃ t u, exec (.push (regByte r)) s = .next t ∧ exec (.pop (regByte r')) t = .next u ∧
    u.reg r' = s.reg r ∧ (s.sp ≠ 0xF4#8 → u.sp = s.sp) ∧ (s.sp = 0xF4#8 → u.sp = 0xF3#8) ∧ KeepsRegsBut r' s u

/-- 44_control_flow.md, the call and return round trip, for every sp: a RET from any later state with the same sp and the same byte on top of the stack
resumes after the CALL. Derived by the spec from CALL and RET. -/
def Obligations.CallReturnRoundTrip : Prop :=
  ∀ (a : RegIdx) (s : State), s.pc.toNat ≤ 253 → ∃ t, exec (.call (regByte a)) s = .next t ∧
    ∀ u : State, u.sp = t.sp → u.byteAt u.sp.toNat = t.byteAt t.sp.toNat →
      ∃ v, exec .ret u = .next v ∧ v.pc.toNat = s.pc.toNat + 2 ∧ v.sp = s.sp

/-- 44_control_flow.md, compare and branch, with any instructions but CMP in between: JEQ is taken exactly when the operands were equal at the CMP.
Derived by the spec from CMP and JEQ. -/
def Obligations.CompareThenBranch : Prop :=
  ∀ (a b target : RegIdx) (body : List Instr) (s : State), (∀ i ∈ body, i.isCmp = false) →
    ∃ c, exec (.cmp (regByte a) (regByte b)) s = .next c ∧ ∀ u : State, execAll body c = .next u →
      ∃ v, exec (.jeq (regByte target)) u = .next v ∧
        (s.reg a = s.reg b → v.pc.toNat = (u.reg target).toNat) ∧ (s.reg a ≠ s.reg b → AdvancesPc 2 u v)

/-- 70_reset_and_hazards.md section 2: a CALL whose push lands on its own operand byte still jumps by the byte it latched, and the new byte stands in memory
for the next fetch. -/
def Obligations.CallOverItsOwnOperand : Prop :=
  ∀ (a : RegIdx) (s : State), s.Ready → s.byteAt s.pc.toNat = 0x50#8 → s.byteAt (s.pc.toNat + 1) = regByte a →
    s.sp.toNat = s.pc.toNat + 2 → ∃ t, step s = .next t ∧ t.pc.toNat = (s.reg a).toNat ∧
      (t.byteAt (s.pc.toNat + 1)).toNat = s.pc.toNat + 2

/-- 20_memory.md section 4: fetch is coherent with stores: a pushed byte is what any later fetch at its address latches, while memory is unchanged. -/
def Obligations.FetchSeesPushedByte : Prop :=
  ∀ (a : RegIdx) (s : State), ∃ t, exec (.push (regByte a)) s = .next t ∧
    ∀ u : State, KeepsMem t u → u.pc.toNat = t.sp.toNat → u.pc.toNat ≤ 253 →
      ∃ op1 op2 : Byte, fetch u = .ok ⟨s.reg a, op1, op2⟩

/-- 20_memory.md section 1: MemRead and MemWrite in and out of range; a write changes its own byte and no other, nothing but memory, and keeps the
canonical form of the memory list (the model's own form of R40's array). -/
def Obligations.MemoryAccesses : Prop :=
  (∀ (a : Nat) (s : State), a ≤ 255 → memRead a s = .ok (s.byteAt a)) ∧
  (∀ (a : Nat) (s : State), 255 < a → memRead a s = .error (.memoryBounds a s.pc)) ∧
  (∀ (a : Nat) (v : Byte) (s : State), a ≤ 255 → ∃ t, memWrite a v s = .ok t ∧ t.byteAt a = v ∧ KeepsMemBut a s t ∧
    t = { s with mem := t.mem } ∧ (Memory.wf s.mem → Memory.wf t.mem)) ∧
  (∀ (a : Nat) (v : Byte) (s : State), 255 < a → memWrite a v s = .error (.memoryBounds a s.pc))

/-- Two canonical memories that read the same at all 256 addresses are the same data (the model's form of 20_memory.md section 1's array). -/
def Obligations.CanonicalMemoryIsUnique : Prop :=
  ∀ m n : Memory, Memory.wf m → Memory.wf n → (∀ a : Nat, a < 256 → Memory.read m a = Memory.read n a) → m = n

/-! ### Runs -/

/-- 40_loop_dispatch.md section 4, how a run of the core goes on and ends: it is running after every one of its first n steps and has no status, or some step before the
n-th ended it and every longer run stands in that same final state. It is ended by HALT, which changes run alone and gives status 0, or by a fault whose cause is true of
the state before it, which changes run alone and gives the non-zero EXIT_FAULT of its code with that fault's record. The order of checks, the fetch bounds and the fault's status are the
spec's decisions D7, D8 and D16 (log 4, 6, 7); that out keeps its values its decision D17 (log 15). -/
def Obligations.RunEndsByHaltOrFault : Prop :=
  ∀ (n : Nat) (s : State), s.run = .running →
    (∀ k : Nat, k ≤ n → (runFor k s).run = .running ∧ status (runFor k s) = none) ∨
    ∃ (k : Nat) (t : State), k < n ∧ (runFor k s).run = .running ∧ (∀ m : Nat, k < m → runFor m s = t) ∧
      ((t = { runFor k s with run := .halted } ∧ (runFor k s).pc.toNat ≤ 253 ∧
          (runFor k s).byteAt (runFor k s).pc.toNat = 0x01#8 ∧ status t = some { exit := 0, diagnostic := none }) ∨
        ∃ f : FaultRecord, t = { runFor k s with run := .faulted f } ∧ FaultCause (runFor k s) f ∧ Config.exitFault f.code ≠ 0 ∧
          status t = some { exit := Config.exitFault f.code, diagnostic := some f })

/-- 42_data_io.md: an emitted value cannot be retracted: whatever a run does later, what is on the output channel stays its beginning. The spec's
decisions D10 and D17 (log 15). -/
def Obligations.RunNeverRetractsOutput : Prop :=
  ∀ (n : Nat) (s : State), ∃ later : List Byte, (runFor n s).out = s.out ++ later ∧ later.length ≤ n

/-- The invariant along any run from any state that meets it, and across every transaction of a session. -/
def Obligations.RunKeepsInvariant : Prop :=
  (∀ (n : Nat) (s : State), State.Inv s → State.Inv (runFor n s)) ∧
  (∀ (m : Transaction) (x y : Session), State.Inv x.state → transact m x = .next y → State.Inv y.state) ∧
  (∀ (ms : List Transaction) (x : Session), transactAll ms .constructed = .next x → State.Inv x.state)

/-- The host's view of one table word (the model's own interface, log 12): placed in any state, it is the instruction the next step runs. -/
def Obligations.PlacedTableWordRuns : Prop :=
  ∀ (s : State) (nbits w : Nat) (i : Instr), decodeTableWord nbits w = some i →
    step (s.withFetchWord nbits w) = exec i (s.withFetchWord nbits w)
end

