-- ==== Sys2Proof/Laws/State.lean ====
section
/-! SUPPORT. One lemma per field per update of the state, and the read-after-write laws of the register file. -/

namespace Sys2Proof.Machine

/-! ### setReg -/

@[simp] theorem State.setReg_mem (s : State) (r : RegIdx) (v : Byte) : (s.setReg r v).mem = s.mem := rfl
@[simp] theorem State.setReg_regs (s : State) (r : RegIdx) (v : Byte) : (s.setReg r v).regs = s.regs.set r.val v := rfl
@[simp] theorem State.setReg_pc (s : State) (r : RegIdx) (v : Byte) : (s.setReg r v).pc = s.pc := rfl
@[simp] theorem State.setReg_sp (s : State) (r : RegIdx) (v : Byte) : (s.setReg r v).sp = s.sp := rfl
@[simp] theorem State.setReg_fl (s : State) (r : RegIdx) (v : Byte) : (s.setReg r v).fl = s.fl := rfl
@[simp] theorem State.setReg_out (s : State) (r : RegIdx) (v : Byte) : (s.setReg r v).out = s.out := rfl
@[simp] theorem State.setReg_run (s : State) (r : RegIdx) (v : Byte) : (s.setReg r v).run = s.run := rfl
@[simp] theorem State.setReg_byteAt (s : State) (r : RegIdx) (v : Byte) (addr : Nat) : (s.setReg r v).byteAt addr = s.byteAt addr := rfl

/-! ### jump -/

@[simp] theorem State.jump_mem (s : State) (target : Byte) : (s.jump target).mem = s.mem := rfl
@[simp] theorem State.jump_regs (s : State) (target : Byte) : (s.jump target).regs = s.regs := rfl
@[simp] theorem State.jump_pc (s : State) (target : Byte) : (s.jump target).pc = zextPc target := rfl
@[simp] theorem State.jump_sp (s : State) (target : Byte) : (s.jump target).sp = s.sp := rfl
@[simp] theorem State.jump_fl (s : State) (target : Byte) : (s.jump target).fl = s.fl := rfl
@[simp] theorem State.jump_out (s : State) (target : Byte) : (s.jump target).out = s.out := rfl
@[simp] theorem State.jump_run (s : State) (target : Byte) : (s.jump target).run = s.run := rfl
@[simp] theorem State.jump_byteAt (s : State) (target : Byte) (addr : Nat) : (s.jump target).byteAt addr = s.byteAt addr := rfl
@[simp] theorem State.jump_reg (s : State) (target : Byte) (k : RegIdx) : (s.jump target).reg k = s.reg k := rfl

/-! ### advance -/

@[simp] theorem State.advance_mem (s : State) (len : Nat) : (s.advance len).mem = s.mem := rfl
@[simp] theorem State.advance_regs (s : State) (len : Nat) : (s.advance len).regs = s.regs := rfl
@[simp] theorem State.advance_pc (s : State) (len : Nat) : (s.advance len).pc = s.pc + BitVec.ofNat 9 len := rfl
@[simp] theorem State.advance_sp (s : State) (len : Nat) : (s.advance len).sp = s.sp := rfl
@[simp] theorem State.advance_fl (s : State) (len : Nat) : (s.advance len).fl = s.fl := rfl
@[simp] theorem State.advance_out (s : State) (len : Nat) : (s.advance len).out = s.out := rfl
@[simp] theorem State.advance_run (s : State) (len : Nat) : (s.advance len).run = s.run := rfl
@[simp] theorem State.advance_byteAt (s : State) (len : Nat) (addr : Nat) : (s.advance len).byteAt addr = s.byteAt addr := rfl
@[simp] theorem State.advance_reg (s : State) (len : Nat) (k : RegIdx) : (s.advance len).reg k = s.reg k := rfl

/-! ### setSp -/

@[simp] theorem State.setSp_mem (s : State) (v : Byte) : (s.setSp v).mem = s.mem := rfl
@[simp] theorem State.setSp_regs (s : State) (v : Byte) : (s.setSp v).regs = s.regs := rfl
@[simp] theorem State.setSp_pc (s : State) (v : Byte) : (s.setSp v).pc = s.pc := rfl
@[simp] theorem State.setSp_sp (s : State) (v : Byte) : (s.setSp v).sp = v := rfl
@[simp] theorem State.setSp_fl (s : State) (v : Byte) : (s.setSp v).fl = s.fl := rfl
@[simp] theorem State.setSp_out (s : State) (v : Byte) : (s.setSp v).out = s.out := rfl
@[simp] theorem State.setSp_run (s : State) (v : Byte) : (s.setSp v).run = s.run := rfl
@[simp] theorem State.setSp_byteAt (s : State) (v : Byte) (addr : Nat) : (s.setSp v).byteAt addr = s.byteAt addr := rfl
@[simp] theorem State.setSp_reg (s : State) (v : Byte) (k : RegIdx) : (s.setSp v).reg k = s.reg k := rfl

/-! ### setFl -/

@[simp] theorem State.setFl_mem (s : State) (v : Byte) : (s.setFl v).mem = s.mem := rfl
@[simp] theorem State.setFl_regs (s : State) (v : Byte) : (s.setFl v).regs = s.regs := rfl
@[simp] theorem State.setFl_pc (s : State) (v : Byte) : (s.setFl v).pc = s.pc := rfl
@[simp] theorem State.setFl_sp (s : State) (v : Byte) : (s.setFl v).sp = s.sp := rfl
@[simp] theorem State.setFl_fl (s : State) (v : Byte) : (s.setFl v).fl = v := rfl
@[simp] theorem State.setFl_out (s : State) (v : Byte) : (s.setFl v).out = s.out := rfl
@[simp] theorem State.setFl_run (s : State) (v : Byte) : (s.setFl v).run = s.run := rfl
@[simp] theorem State.setFl_byteAt (s : State) (v : Byte) (addr : Nat) : (s.setFl v).byteAt addr = s.byteAt addr := rfl
@[simp] theorem State.setFl_reg (s : State) (v : Byte) (k : RegIdx) : (s.setFl v).reg k = s.reg k := rfl

/-! ### emit -/

@[simp] theorem State.emit_mem (s : State) (v : Byte) : (s.emit v).mem = s.mem := rfl
@[simp] theorem State.emit_regs (s : State) (v : Byte) : (s.emit v).regs = s.regs := rfl
@[simp] theorem State.emit_pc (s : State) (v : Byte) : (s.emit v).pc = s.pc := rfl
@[simp] theorem State.emit_sp (s : State) (v : Byte) : (s.emit v).sp = s.sp := rfl
@[simp] theorem State.emit_fl (s : State) (v : Byte) : (s.emit v).fl = s.fl := rfl
@[simp] theorem State.emit_out (s : State) (v : Byte) : (s.emit v).out = s.out ++ [v] := rfl
@[simp] theorem State.emit_run (s : State) (v : Byte) : (s.emit v).run = s.run := rfl
@[simp] theorem State.emit_byteAt (s : State) (v : Byte) (addr : Nat) : (s.emit v).byteAt addr = s.byteAt addr := rfl
@[simp] theorem State.emit_reg (s : State) (v : Byte) (k : RegIdx) : (s.emit v).reg k = s.reg k := rfl

/-! ### setMem -/

@[simp] theorem State.setMem_mem (s : State) (m : Memory) : (s.setMem m).mem = m := rfl
@[simp] theorem State.setMem_regs (s : State) (m : Memory) : (s.setMem m).regs = s.regs := rfl
@[simp] theorem State.setMem_pc (s : State) (m : Memory) : (s.setMem m).pc = s.pc := rfl
@[simp] theorem State.setMem_sp (s : State) (m : Memory) : (s.setMem m).sp = s.sp := rfl
@[simp] theorem State.setMem_fl (s : State) (m : Memory) : (s.setMem m).fl = s.fl := rfl
@[simp] theorem State.setMem_out (s : State) (m : Memory) : (s.setMem m).out = s.out := rfl
@[simp] theorem State.setMem_run (s : State) (m : Memory) : (s.setMem m).run = s.run := rfl
@[simp] theorem State.setMem_byteAt (s : State) (m : Memory) (addr : Nat) :
    (s.setMem m).byteAt addr = Memory.read m addr := rfl
@[simp] theorem State.setMem_reg (s : State) (m : Memory) (k : RegIdx) : (s.setMem m).reg k = s.reg k := rfl

/-! ### halt -/

@[simp] theorem State.halt_mem (s : State) : s.halt.mem = s.mem := rfl
@[simp] theorem State.halt_regs (s : State) : s.halt.regs = s.regs := rfl
@[simp] theorem State.halt_pc (s : State) : s.halt.pc = s.pc := rfl
@[simp] theorem State.halt_sp (s : State) : s.halt.sp = s.sp := rfl
@[simp] theorem State.halt_fl (s : State) : s.halt.fl = s.fl := rfl
@[simp] theorem State.halt_out (s : State) : s.halt.out = s.out := rfl
@[simp] theorem State.halt_run (s : State) : s.halt.run = .halted := rfl
@[simp] theorem State.halt_byteAt (s : State) (addr : Nat) : s.halt.byteAt addr = s.byteAt addr := rfl
@[simp] theorem State.halt_reg (s : State) (k : RegIdx) : s.halt.reg k = s.reg k := rfl

/-! ### enterFault -/

@[simp] theorem State.enterFault_mem (s : State) (f : FaultRecord) : (s.enterFault f).mem = s.mem := rfl
@[simp] theorem State.enterFault_regs (s : State) (f : FaultRecord) : (s.enterFault f).regs = s.regs := rfl
@[simp] theorem State.enterFault_pc (s : State) (f : FaultRecord) : (s.enterFault f).pc = s.pc := rfl
@[simp] theorem State.enterFault_sp (s : State) (f : FaultRecord) : (s.enterFault f).sp = s.sp := rfl
@[simp] theorem State.enterFault_fl (s : State) (f : FaultRecord) : (s.enterFault f).fl = s.fl := rfl
@[simp] theorem State.enterFault_out (s : State) (f : FaultRecord) : (s.enterFault f).out = s.out := rfl
@[simp] theorem State.enterFault_run (s : State) (f : FaultRecord) : (s.enterFault f).run = .faulted f := rfl
@[simp] theorem State.enterFault_byteAt (s : State) (f : FaultRecord) (addr : Nat) : (s.enterFault f).byteAt addr = s.byteAt addr := rfl
@[simp] theorem State.enterFault_reg (s : State) (f : FaultRecord) (k : RegIdx) : (s.enterFault f).reg k = s.reg k := rfl

/-- A cell is read through `byteAt` in every claim; memory alone decides it. -/
theorem State.byteAt_eq (s : State) (addr : Nat) : s.byteAt addr = Memory.read s.mem addr := rfl

/-! ### The register file -/

@[simp] theorem State.setReg_reg_same (s : State) (r : RegIdx) (v : Byte) : (s.setReg r v).reg r = v := by
  simp [State.reg]

theorem State.setReg_reg_other (s : State) (r k : RegIdx) (v : Byte) (h : k ≠ r) :
    (s.setReg r v).reg k = s.reg k := by
  have : r.val ≠ k.val := fun e => h (Fin.ext e.symm)
  simp [State.reg, Vector.getElem_set_ne, this]

theorem State.setReg_reg (s : State) (r k : RegIdx) (v : Byte) :
    (s.setReg r v).reg k = if k = r then v else s.reg k := by
  by_cases h : k = r
  · subst h; simp
  · simp [h, State.setReg_reg_other s r k v h]

/-- Two states with the same registers one by one have the same register file. -/
theorem State.regs_ext {s t : State} (h : ∀ r : RegIdx, t.reg r = s.reg r) : t.regs = s.regs := by
  apply Vector.ext
  intro i hi
  exact h ⟨i, hi⟩

@[simp] theorem State.reset_reg (r : RegIdx) : State.reset.reg r = 0 := by
  simp [State.reg, State.reset]

end Sys2Proof.Machine
end

