-- ==== Sys2Proof/Laws/Memory.lean ====
section
/-! SUPPORT. The laws of memory: read after write, and that every memory operation keeps the canonical form. -/

namespace Sys2Proof.Machine

@[simp] theorem Memory.read_nil (a : Nat) : Memory.read [] a = Config.unwrittenByte := rfl

@[simp] theorem Memory.read_cons (c : Host.Cell) (m : Memory) (a : Nat) :
    Memory.read (c :: m) a = if c.1 = a then c.2 else Memory.read m a := rfl

/-! ### erase and insert -/

theorem Memory.read_erase (m : Memory) (a k : Nat) :
    Memory.read (Memory.erase m a) k = if k = a then Config.unwrittenByte else Memory.read m k := by
  induction m with
  | nil => simp [Memory.erase]
  | cons c m ih =>
    unfold Memory.erase at ih ⊢
    by_cases hc : c.1 = a
    · rw [List.filter_cons_of_neg (by simpa using hc), ih]
      by_cases hk : k = a
      · simp [hk]
      · have : c.1 ≠ k := fun e => hk (e ▸ hc)
        simp [hk, this]
    · rw [List.filter_cons_of_pos (by simpa using hc), Memory.read_cons, ih, Memory.read_cons]
      by_cases hk : c.1 = k
      · have : k ≠ a := hk ▸ hc
        simp [hk, this]
      · simp [hk]

theorem Memory.mem_insert {m : Memory} {a : Nat} {v : Byte} {c : Host.Cell} :
    c ∈ Memory.insert m a v ↔ c = (a, v) ∨ c ∈ m := by
  induction m with
  | nil => simp [Memory.insert]
  | cons d m ih =>
    unfold Memory.insert
    split
    · simp
    · simp [ih]; tauto

theorem Memory.read_insert (m : Memory) (a k : Nat) (v : Byte) (h : ∀ c ∈ m, c.1 ≠ a) :
    Memory.read (Memory.insert m a v) k = if k = a then v else Memory.read m k := by
  induction m with
  | nil => simp [Memory.insert, eq_comm]
  | cons c m ih =>
    have hc := h c (by simp)
    have ih := ih fun d hd => h d (by simp [hd])
    unfold Memory.insert
    split
    · simp [eq_comm]
    · rw [Memory.read_cons, ih, Memory.read_cons]
      by_cases hk : c.1 = k
      · have : k ≠ a := hk ▸ hc
        simp [hk, this]
      · simp [hk]

theorem Memory.erase_addr_ne {m : Memory} {a : Nat} {c : Host.Cell} (h : c ∈ Memory.erase m a) : c.1 ≠ a := by
  simpa using (List.mem_filter.mp h).2

/-! ### Read after write -/

/-- Reading any address after a write to one. -/
theorem Memory.read_write (m : Memory) (a k : Nat) (v : Byte) :
    Memory.read (Memory.write m a v) k = if k = a then v else Memory.read m k := by
  unfold Memory.write
  split
  · next h => rw [Memory.read_erase, h]
  · rw [Memory.read_insert _ _ _ _ fun c hc => Memory.erase_addr_ne hc, Memory.read_erase]
    split <;> simp_all

@[simp] theorem Memory.read_write_same (m : Memory) (a : Nat) (v : Byte) :
    Memory.read (Memory.write m a v) a = v := by
  simp [Memory.read_write]

theorem Memory.read_write_other (m : Memory) (a k : Nat) (v : Byte) (h : k ≠ a) :
    Memory.read (Memory.write m a v) k = Memory.read m k := by
  simp [Memory.read_write, h]

/-- Reading any address after consecutive bytes are written from `a` upward. -/
theorem Memory.read_writeFrom (m : Memory) (a k : Nat) (bs : List Byte) :
    Memory.read (Memory.writeFrom m a bs) k =
      if a ≤ k then (bs[k - a]?).getD (Memory.read m k) else Memory.read m k := by
  induction bs generalizing m a with
  | nil => simp [Memory.writeFrom]
  | cons v bs ih =>
    rw [Memory.writeFrom, ih, Memory.read_write]
    rcases Nat.lt_trichotomy k a with h | h | h
    · have h1 : ¬ a + 1 ≤ k := by omega
      have h2 : ¬ a ≤ k := by omega
      have h3 : k ≠ a := by omega
      simp [h1, h2, h3]
    · subst h; simp
    · have h1 : a + 1 ≤ k := h
      have h2 : a ≤ k := by omega
      have h3 : k ≠ a := by omega
      obtain ⟨d, rfl⟩ := Nat.exists_eq_add_of_le h1
      have h4 : a + 1 + d - a = d + 1 := by omega
      have h5 : a + 1 + d - (a + 1) = d := by omega
      rw [if_pos h1, if_pos h2, h4, h5]
      simp [h3]

/-! ### The canonical form is kept -/

theorem Memory.wf_nil : Memory.wf [] := by simp [Memory.wf]

theorem Memory.erase_wf {m : Memory} (h : Memory.wf m) (a : Nat) : Memory.wf (Memory.erase m a) :=
  ⟨h.1.filter _, fun c hc => h.2 c (List.mem_filter.mp hc).1⟩

theorem Memory.insert_wf {m : Memory} {a : Nat} {v : Byte} (h : Memory.wf m) (hne : ∀ c ∈ m, c.1 ≠ a)
    (ha : a < Config.memSize) (hv : v ≠ Config.unwrittenByte) : Memory.wf (Memory.insert m a v) := by
  refine ⟨?_, fun c hc => ?_⟩
  · obtain ⟨hs, -⟩ := h
    induction m with
    | nil => simp [Memory.insert]
    | cons c m ih =>
      have hc := hne c (by simp)
      obtain ⟨h1, h2⟩ := List.pairwise_cons.mp hs
      unfold Memory.insert
      split
      · next hlt =>
        refine List.pairwise_cons.mpr ⟨fun d hd => ?_, hs⟩
        rcases List.mem_cons.mp hd with rfl | hd
        · exact hlt
        · exact Nat.lt_trans hlt (h1 d hd)
      · next hlt =>
        refine List.pairwise_cons.mpr ⟨fun d hd => ?_, ih (fun d hd => hne d (by simp [hd])) h2⟩
        rcases Memory.mem_insert.mp hd with rfl | hd
        · have : c.1 ≠ a := hc
          simp only; omega
        · exact h1 d hd
  · rcases Memory.mem_insert.mp hc with rfl | hc
    · exact ⟨ha, hv⟩
    · exact h.2 c hc

/-- Every write inside the array keeps the canonical form. -/
theorem Memory.write_wf {m : Memory} (h : Memory.wf m) {a : Nat} (ha : a < Config.memSize) (v : Byte) :
    Memory.wf (Memory.write m a v) := by
  unfold Memory.write
  split
  · exact Memory.erase_wf h a
  · next hv => exact Memory.insert_wf (Memory.erase_wf h a) (fun c hc => Memory.erase_addr_ne hc) ha hv

theorem Memory.writeFrom_wf {m : Memory} (h : Memory.wf m) {a : Nat} (bs : List Byte)
    (ha : a + bs.length ≤ Config.memSize) : Memory.wf (Memory.writeFrom m a bs) := by
  induction bs generalizing m a with
  | nil => exact h
  | cons v bs ih =>
    simp only [List.length_cons] at ha
    exact ih (Memory.write_wf h (by omega) v) (by omega)

/-- An address below every listed one reads as unwritten. -/
theorem Memory.read_of_forall_gt {m : Memory} {a : Nat} (h : ∀ c ∈ m, a < c.1) :
    Memory.read m a = Config.unwrittenByte := by
  induction m with
  | nil => rfl
  | cons c m ih =>
    have : c.1 ≠ a := by have := h c (by simp); omega
    rw [Memory.read_cons, if_neg this]
    exact ih fun d hd => h d (by simp [hd])

end Sys2Proof.Machine
end

