-- ==== Sys2Proof/Laws/Ops.lean ====
section
/-! SUPPORT. What each shared operation can do, said once: checks, memory accesses, the stack, fetch, fault entry. -/

namespace Sys2Proof.Machine

/-! ### Bytes, addresses and register operands -/

@[simp] theorem regByte_toNat (r : RegIdx) : (regByte r).toNat = r.val := by
  have := r.isLt
  simp [regByte, BitVec.toNat_ofNat]; omega

theorem regByte_inj {r k : RegIdx} (h : regByte r = regByte k) : r = k := by
  have := congrArg BitVec.toNat h
  exact Fin.ext (by simpa using this)

/-- The bytes up to 7 are the operand bytes of the eight registers. -/
theorem exists_regByte {a : Byte} (h : a.toNat ≤ 7) : ∃ r : RegIdx, a = regByte r :=
  ⟨⟨a.toNat, by omega⟩, BitVec.eq_of_toNat_eq (by simp)⟩

@[simp] theorem u8_toNat (n : Nat) : (u8 n).toNat = n % 256 := by simp [u8, BitVec.toNat_ofNat]

@[simp] theorem zextPc_toNat (v : Byte) : (zextPc v).toNat = v.toNat := by
  have := v.isLt
  simp [zextPc]; omega

theorem byte_lt_memSize (v : Byte) : v.toNat < Config.memSize := v.isLt

/-! ### complete and Except -/

@[simp] theorem complete_ok (s t : State) : complete s (.ok t) = .next t := rfl

@[simp] theorem complete_error (s : State) (f : FaultRecord) : complete s (.error f) = .next (s.enterFault f) := rfl

@[simp] theorem takeFault_eq (f : FaultRecord) (s : State) : takeFault f s = .next (s.enterFault f) := rfl

@[simp] theorem check_bind_ok {α β : Type} (x : α) (k : α → Check β) :
    ((Except.ok x : Check α) >>= k) = k x := rfl

@[simp] theorem check_bind_error {α β : Type} (f : FaultRecord) (k : α → Check β) :
    ((Except.error f : Check α) >>= k) = .error f := rfl

@[simp] theorem check_pure {α : Type} (x : α) : (pure x : Check α) = .ok x := rfl

/-- Everything a completed handler can be: what it computed, or its fault taken in the state before the step. -/
theorem complete_cases {s t : State} {c : Check State} (h : complete s c = .next t) :
    c = .ok t ∨ ∃ f, c = .error f ∧ t = s.enterFault f := by
  cases c with
  | ok u => left; simpa using h
  | error f => right; exact ⟨f, rfl, by simpa using h.symm⟩

/-- A handler always answers a next state. -/
theorem complete_next (s : State) (c : Check State) : ∃ t, complete s c = .next t := by
  cases c <;> simp

/-! ### Register operands -/

@[simp] theorem checkReg_regByte (slot : OperandSlot) (r : RegIdx) (s : State) :
    checkReg slot (regByte r) s = .ok r := by
  have h : (regByte r).toNat < 8 := by simp
  unfold checkReg
  rw [dif_pos h]
  congr 1
  exact Fin.ext (by simp)

theorem checkReg_bad {slot : OperandSlot} {i : Byte} {s : State} (h : 7 < i.toNat) :
    checkReg slot i s = .error (.registerIndex i slot s.pc) := by
  unfold checkReg
  rw [dif_neg (by omega)]

/-- An operand byte names a register or is out of range; each case gives `checkReg`'s answer in every state. -/
theorem regByte_cases (i : Byte) : (∃ r : RegIdx, i = regByte r) ∨ 7 < i.toNat := by
  rcases Nat.lt_or_ge 7 i.toNat with h | h
  · exact .inr h
  · exact .inl (exists_regByte h)

@[simp] theorem checkRegs_regByte (a b : RegIdx) (s : State) :
    checkRegs (regByte a) (regByte b) s = .ok (a, b) := by
  simp [checkRegs]

theorem checkRegs_badA {a b : Byte} {s : State} (h : 7 < a.toNat) :
    checkRegs a b s = .error (.registerIndex a .a s.pc) := by
  simp [checkRegs, checkReg_bad h]

theorem checkRegs_badB {a : RegIdx} {b : Byte} {s : State} (h : 7 < b.toNat) :
    checkRegs (regByte a) b s = .error (.registerIndex b .b s.pc) := by
  simp [checkRegs, checkReg_bad h]

/-! ### Memory accesses -/

theorem memRead_ok {a : Nat} {s : State} (h : a < Config.memSize) : memRead a s = .ok (s.byteAt a) := by
  simp [memRead, h, State.byteAt]

theorem memRead_bad {a : Nat} {s : State} (h : ¬ a < Config.memSize) :
    memRead a s = .error (.memoryBounds a s.pc) := by
  simp [memRead, h]

theorem memWrite_ok {a : Nat} {v : Byte} {s : State} (h : a < Config.memSize) :
    memWrite a v s = .ok (s.setMem (Memory.write s.mem a v)) := by
  simp [memWrite, h]

theorem memWrite_bad {a : Nat} {v : Byte} {s : State} (h : ¬ a < Config.memSize) :
    memWrite a v s = .error (.memoryBounds a s.pc) := by
  simp [memWrite, h]

/-- The stack's addresses are bytes, so a push never faults (43_stack.md R150). -/
@[simp] theorem pushByte_eq (v : Byte) (s : State) :
    pushByte v s = .ok ((s.setSp (s.sp - 1)).setMem (Memory.write s.mem (s.sp - 1).toNat v)) :=
  memWrite_ok (byte_lt_memSize _)

/-- A read of the top of the stack never faults (43_stack.md R152). -/
@[simp] theorem topByte_eq (s : State) : topByte s = .ok (s.byteAt s.sp.toNat) :=
  memRead_ok (byte_lt_memSize _)

/-- POP's increment as one update of sp, with the special case inside it. -/
theorem raiseSpUnlessEmpty_eq (s : State) :
    raiseSpUnlessEmpty s = s.setSp (if s.sp = Config.spInit then s.sp else s.sp + 1) := by
  unfold raiseSpUnlessEmpty
  split <;> rfl

/-! ### Fetch -/

/-- A fetch whose three addresses are in range latches the three bytes. -/
theorem fetch_ok {s : State} (h : s.pc.toNat ≤ 253) :
    fetch s = .ok ⟨s.byteAt s.pc.toNat, s.byteAt (s.pc.toNat + 1), s.byteAt (s.pc.toNat + 2)⟩ := by
  have h0 : s.pc.toNat < Config.memSize := by simp only [Config.memSize]; omega
  have h1 : s.pc.toNat + 1 < Config.memSize := by simp only [Config.memSize]; omega
  have h2 : s.pc.toNat + 2 < Config.memSize := by simp only [Config.memSize]; omega
  simp [fetch, memRead_ok h0, memRead_ok h1, memRead_ok h2]

/-- Any other fetch raises at the lowest address above 255 (40_loop_dispatch.md R81). -/
theorem fetch_bad {s : State} (h : 253 < s.pc.toNat) :
    fetch s = .error (.memoryBounds (max 256 s.pc.toNat) s.pc) := by
  unfold fetch
  by_cases h0 : s.pc.toNat < Config.memSize
  · rw [memRead_ok h0]
    by_cases h1 : s.pc.toNat + 1 < Config.memSize
    · have h2 : ¬ s.pc.toNat + 2 < Config.memSize := by simp only [Config.memSize]; omega
      rw [memRead_ok h1, memRead_bad h2]
      have : max 256 s.pc.toNat = s.pc.toNat + 2 := by simp only [Config.memSize] at *; omega
      simp [this]
    · rw [memRead_bad h1]
      have : max 256 s.pc.toNat = s.pc.toNat + 1 := by simp only [Config.memSize] at *; omega
      simp [this]
  · rw [memRead_bad h0]
    have : max 256 s.pc.toNat = s.pc.toNat := by simp only [Config.memSize] at *; omega
    simp [this]

/-! ### The step -/

theorem step_running {s : State} (h : s.run = .running) : step s = fetchAndExecute s := by
  simp [step, loopStep, h]

/-- A step from a ready state is the dispatch of its window. -/
theorem step_ready {s : State} (h : s.Ready) :
    step s = dispatchWindow ⟨s.byteAt s.pc.toNat, s.byteAt (s.pc.toNat + 1), s.byteAt (s.pc.toNat + 2)⟩ s := by
  rw [step_running h.1, fetchAndExecute, fetch_ok h.2]

/-- A step from a running state that is not ready takes its fetch fault. -/
theorem step_fetch_fault {s : State} (hr : s.run = .running) (h : 253 < s.pc.toNat) :
    step s = .next (s.enterFault (.memoryBounds (max 256 s.pc.toNat) s.pc)) := by
  rw [step_running hr, fetchAndExecute, fetch_bad h]
  rfl

/-- Only a running state has a next state. -/
theorem running_of_step {s t : State} (h : step s = .next t) : s.run = .running := by
  unfold step loopStep at h
  split at h
  · assumption
  · cases h
  · cases h

end Sys2Proof.Machine
end

