-- ==== Sys2Proof/Laws/Exec.lean ====
section
/-! SUPPORT. One equation per meaning on operands that name registers, and what the shared register-to-register shape does on
an index out of range. Proofs cite these and do not unfold a meaning. -/

namespace Sys2Proof.Machine

/-! ### The shared shape of the ALU -/

@[simp] theorem aluBinary_regByte (f : Byte → Byte → Byte) (a b : RegIdx) (s : State) :
    aluBinary f (regByte a) (regByte b) s = .next ((s.setReg a (f (s.reg a) (s.reg b))).advance 3) := by
  simp [aluBinary]

theorem aluBinary_badA {f : Byte → Byte → Byte} {a b : Byte} {s : State} (h : 7 < a.toNat) :
    aluBinary f a b s = .next (s.enterFault (.registerIndex a .a s.pc)) := by
  simp [aluBinary, checkRegs_badA h]

theorem aluBinary_badB {f : Byte → Byte → Byte} {a : RegIdx} {b : Byte} {s : State} (h : 7 < b.toNat) :
    aluBinary f (regByte a) b s = .next (s.enterFault (.registerIndex b .b s.pc)) := by
  simp [aluBinary, checkRegs_badB h]

/-! ### The meanings on register operands -/

theorem execMod_regByte {a b : RegIdx} {s : State} (h : s.reg b ≠ 0) :
    execMod (regByte a) (regByte b) s = .next ((s.setReg a (aluMod (s.reg a) (s.reg b))).advance 3) := by
  have h' : ¬ s.reg b = 0#8 := h
  simp [execMod, h']

theorem execMod_zero {a b : RegIdx} {s : State} (h : s.reg b = 0) :
    execMod (regByte a) (regByte b) s = .next (s.enterFault (.divisionByZero (regByte b) s.pc)) := by
  simp [execMod, h]

@[simp] theorem execNot_regByte (a : RegIdx) (s : State) :
    execNot (regByte a) s = .next ((s.setReg a (aluNot (s.reg a))).advance 2) := by
  simp [execNot]

@[simp] theorem execCmp_regByte (a b : RegIdx) (s : State) :
    execCmp (regByte a) (regByte b) s = .next ((s.setFl (compareFlags (s.reg a) (s.reg b))).advance 3) := by
  simp [execCmp]

@[simp] theorem execLdi_regByte (a : RegIdx) (imm : Byte) (s : State) :
    execLdi (regByte a) imm s = .next ((s.setReg a imm).advance 3) := by
  simp [execLdi]

@[simp] theorem execPrn_regByte (a : RegIdx) (s : State) :
    execPrn (regByte a) s = .next ((s.emit (s.reg a)).advance 2) := by
  simp [execPrn]

@[simp] theorem execPush_regByte (a : RegIdx) (s : State) :
    execPush (regByte a) s =
      .next (((s.setSp (s.sp - 1)).setMem (Memory.write s.mem (s.sp - 1).toNat (s.reg a))).advance 2) := by
  simp [execPush]

@[simp] theorem execPop_regByte (a : RegIdx) (s : State) :
    execPop (regByte a) s =
      .next (((s.setReg a (s.byteAt s.sp.toNat)).setSp
        (if s.sp = Config.spInit then s.sp else s.sp + 1)).advance 2) := by
  simp only [execPop, checkReg_regByte, topByte_eq, check_bind_ok, check_pure, complete_ok, raiseSpUnlessEmpty_eq,
    State.setReg_sp]
  rfl

@[simp] theorem execCall_regByte (a : RegIdx) (s : State) :
    execCall (regByte a) s =
      .next (((s.setSp (s.sp - 1)).setMem
        (Memory.write s.mem (s.sp - 1).toNat (u8 (s.pc.toNat + 2)))).jump (s.reg a)) := by
  simp [execCall]

@[simp] theorem execRet_eq (s : State) : execRet s = .next ((s.setSp (s.sp + 1)).jump (s.byteAt s.sp.toNat)) := by
  simp [execRet, raiseSp]

@[simp] theorem execJmp_regByte (a : RegIdx) (s : State) : execJmp (regByte a) s = .next (s.jump (s.reg a)) := by
  simp [execJmp]

@[simp] theorem execJeq_regByte (a : RegIdx) (s : State) :
    execJeq (regByte a) s = .next (if s.isE then s.jump (s.reg a) else s.advance 2) := by
  simp [execJeq]

@[simp] theorem execJne_regByte (a : RegIdx) (s : State) :
    execJne (regByte a) s = .next (if s.isE then s.advance 2 else s.jump (s.reg a)) := by
  simp [execJne]

/-! ### Advancing pc -/

/-- The default advance of an instruction whose fetch succeeded does not wrap (10_state.md R23). -/
theorem State.advance_pc_toNat {s : State} {len : Nat} (hl : len ≤ 3) (hp : s.pc.toNat ≤ 253) :
    (s.advance len).pc.toNat = s.pc.toNat + len := by
  simp [BitVec.toNat_add]; omega

end Sys2Proof.Machine
end

