-- ==== Sys2Proof/Laws/HostLink.lean ====
section
/-! SUPPORT. What each transaction of a session can do, what the host observes, and the laws of runs. Proofs about launches and runs
cite these. -/

namespace Sys2Proof.Machine

/-! ### The state of a session -/

@[simp] theorem Session.state_constructed : Session.constructed.state = State.reset := rfl
@[simp] theorem Session.state_loaded (mem : Memory) : (Session.loaded mem).state = { State.reset with mem := mem } := rfl
@[simp] theorem Session.state_started (s : State) : (Session.started s).state = s := rfl

/-! ### Load, start, step -/

theorem load_constructed {img : List Byte} (h : img.length ≤ Config.memSize) :
    load img .constructed = .next (.loaded (Memory.writeFrom State.reset.mem Config.loadBase img)) := by
  simp [load, h]

theorem load_too_long {img : List Byte} (h : ¬ img.length ≤ Config.memSize) :
    load img .constructed = .refused (.imageTooLong img.length) := by
  simp [load, h]

@[simp] theorem start_loaded (mem : Memory) : start (.loaded mem) = .next (.started { State.reset with mem := mem }) := rfl

theorem sessionStep_started {s t : State} (h : step s = .next t) : sessionStep (.started s) = .next (.started t) := by
  have h : loopStep s = .next t := h
  simp [sessionStep, h]

/-- Everything a step within a session can be: the core's step of a started session. -/
theorem sessionStep_cases {x y : Session} (h : sessionStep x = .next y) :
    ∃ s t, x = .started s ∧ step s = .next t ∧ y = .started t := by
  cases x with
  | constructed => cases h
  | loaded mem => cases h
  | started s =>
    simp only [sessionStep] at h
    split at h
    · next t ht => exact ⟨s, t, rfl, ht, (by cases h; rfl)⟩
    · cases h
    · cases h

/-- Everything a load can be: the first transaction, with an image that fits. -/
theorem load_cases {img : List Byte} {x y : Session} (h : load img x = .next y) :
    x = .constructed ∧ img.length ≤ Config.memSize ∧
      y = .loaded (Memory.writeFrom State.reset.mem Config.loadBase img) := by
  cases x with
  | constructed =>
    simp only [load] at h
    split at h
    · next hl => exact ⟨rfl, hl, by cases h; rfl⟩
    · cases h
  | loaded mem => cases h
  | started s => cases h

/-- Everything a start can be: the run of a loaded session begins. -/
theorem start_cases {x y : Session} (h : start x = .next y) :
    ∃ mem, x = .loaded mem ∧ y = .started { State.reset with mem := mem } := by
  cases x with
  | constructed => cases h
  | loaded mem => exact ⟨mem, rfl, by cases h; rfl⟩
  | started s => cases h

@[simp] theorem transact_load (img : List Byte) : transact (.load img) = load img := rfl
@[simp] theorem transact_start : transact .start = start := rfl
@[simp] theorem transact_step : transact .step = sessionStep := rfl

theorem transactAll_cons {m : Transaction} {x y : Session} (ms : List Transaction) (h : transact m x = .next y) :
    transactAll (m :: ms) x = transactAll ms y := by
  simp [transactAll, h]

/-- A sequence of transactions that is allowed: its first one is, and the others are after it. -/
theorem transactAll_cons_cases {m : Transaction} {ms : List Transaction} {x z : Session}
    (h : transactAll (m :: ms) x = .next z) : ∃ y, transact m x = .next y ∧ transactAll ms y = .next z := by
  unfold transactAll at h
  split at h
  · next y hy => exact ⟨y, hy, h⟩
  · cases h
  · cases h

/-! ### Status -/

theorem status_running {s : State} (h : s.run = .running) : status s = none := by simp [status, h]
theorem status_halted {s : State} (h : s.run = .halted) : status s = some { exit := 0, diagnostic := none } := by
  simp [status, h, Config.exitOk]
theorem status_faulted {s : State} {f : FaultRecord} (h : s.run = .faulted f) :
    status s = some { exit := Config.exitFault f.code, diagnostic := some f } := by
  simp [status, h]

theorem exitStatus_faulted {s : State} {f : FaultRecord} (h : s.run = .faulted f) :
    exitStatus s = some (Config.exitFault f.code) := by
  simp [exitStatus, status_faulted h]

/-- The final state is the state's own fields once the run has ended, and none before. -/
theorem finalState_running {s : State} (h : s.run = .running) : finalState s = none := by simp [finalState, h]
theorem finalState_ended {s : State} (h : s.run ≠ .running) :
    finalState s = some { mem := s.mem, regs := s.regs, pc := s.pc, sp := s.sp, fl := s.fl } := by
  cases hr : s.run with
  | running => exact absurd hr h
  | halted => simp [finalState, hr]
  | faulted f => simp [finalState, hr]

/-- EXIT_FAULT is no success (60_exceptions.md R182). -/
theorem exitFault_ne_zero (c : FaultCode) : Config.exitFault c ≠ 0 := by simp [Config.exitFault]

/-! ### Runs -/

@[simp] theorem runFor_zero (s : State) : runFor 0 s = s := rfl

theorem runFor_succ {s t : State} (n : Nat) (h : step s = .next t) : runFor (n + 1) s = runFor n t := by
  have h : loopStep s = .next t := h
  simp [runFor, h]

/-- A core without a next state stays where it is. -/
theorem runFor_stopped {s : State} (h : ∀ t, step s ≠ .next t) (n : Nat) : runFor n s = s := by
  cases n with
  | zero => rfl
  | succ n =>
    unfold runFor
    split
    · next t ht => exact absurd ht (h t)
    · rfl

/-- A core that is not running has no next state (00_scope.md R13). -/
theorem runFor_ended {s : State} (h : s.run ≠ .running) (n : Nat) : runFor n s = s :=
  runFor_stopped (fun _ ht => h (running_of_step ht)) n

/-- A run of m + n steps is a run of n steps after a run of m steps, also where the core stops on the way. -/
theorem runFor_add (m n : Nat) (s : State) : runFor (m + n) s = runFor n (runFor m s) := by
  induction m generalizing s with
  | zero => simp
  | succ m ih =>
    rw [Nat.succ_add]
    by_cases h : ∃ t, step s = .next t
    · obtain ⟨t, ht⟩ := h
      rw [runFor_succ _ ht, runFor_succ _ ht, ih]
    · have h : ∀ t, step s ≠ .next t := fun t ht => h ⟨t, ht⟩
      simp only [runFor_stopped h]

end Sys2Proof.Machine
end

