-- ==== Sys2Proof/Laws/PerInstr.lean ====
section
/-! SUPPORT. The family of statements made per instruction: the shape of its encoding. -/

namespace Sys2Proof.Laws.EncodingShape

/-- The encoding starts with the instruction's opcode, an opcode of the map, and has the length of its format; its first
operand byte is the operand a where the format has one. -/
def Statement (i : Instr) : Prop :=
  (encode i).head? = some i.opcode ∧ i.opcode ∈ opcodeList ∧ (encode i).length = i.length ∧
    (∀ a, i.regA = some a → (encode i)[1]? = some a) ∧ ∀ b, i.regB = some b → (encode i)[2]? = some b

theorem hlt : Statement .hlt := by
  simp [Statement, encode, Instr.opcode, Instr.operandBytes, Instr.length, Instr.format, Format.length,
    Instr.regA, Instr.regB, opcodeList]

theorem ret : Statement .ret := by
  simp [Statement, encode, Instr.opcode, Instr.operandBytes, Instr.length, Instr.format, Format.length,
    Instr.regA, Instr.regB, opcodeList]

theorem push (a : Byte) : Statement (.push a) := by
  simp [Statement, encode, Instr.opcode, Instr.operandBytes, Instr.length, Instr.format, Format.length,
    Instr.regA, Instr.regB, opcodeList]

theorem pop (a : Byte) : Statement (.pop a) := by
  simp [Statement, encode, Instr.opcode, Instr.operandBytes, Instr.length, Instr.format, Format.length,
    Instr.regA, Instr.regB, opcodeList]

theorem prn (a : Byte) : Statement (.prn a) := by
  simp [Statement, encode, Instr.opcode, Instr.operandBytes, Instr.length, Instr.format, Format.length,
    Instr.regA, Instr.regB, opcodeList]

theorem call (a : Byte) : Statement (.call a) := by
  simp [Statement, encode, Instr.opcode, Instr.operandBytes, Instr.length, Instr.format, Format.length,
    Instr.regA, Instr.regB, opcodeList]

theorem jmp (a : Byte) : Statement (.jmp a) := by
  simp [Statement, encode, Instr.opcode, Instr.operandBytes, Instr.length, Instr.format, Format.length,
    Instr.regA, Instr.regB, opcodeList]

theorem jeq (a : Byte) : Statement (.jeq a) := by
  simp [Statement, encode, Instr.opcode, Instr.operandBytes, Instr.length, Instr.format, Format.length,
    Instr.regA, Instr.regB, opcodeList]

theorem jne (a : Byte) : Statement (.jne a) := by
  simp [Statement, encode, Instr.opcode, Instr.operandBytes, Instr.length, Instr.format, Format.length,
    Instr.regA, Instr.regB, opcodeList]

theorem not (a : Byte) : Statement (.not a) := by
  simp [Statement, encode, Instr.opcode, Instr.operandBytes, Instr.length, Instr.format, Format.length,
    Instr.regA, Instr.regB, opcodeList]

theorem ldi (a imm : Byte) : Statement (.ldi a imm) := by
  simp [Statement, encode, Instr.opcode, Instr.operandBytes, Instr.length, Instr.format, Format.length,
    Instr.regA, Instr.regB, opcodeList]

theorem add (a b : Byte) : Statement (.add a b) := by
  simp [Statement, encode, Instr.opcode, Instr.operandBytes, Instr.length, Instr.format, Format.length,
    Instr.regA, Instr.regB, opcodeList]

theorem mul (a b : Byte) : Statement (.mul a b) := by
  simp [Statement, encode, Instr.opcode, Instr.operandBytes, Instr.length, Instr.format, Format.length,
    Instr.regA, Instr.regB, opcodeList]

theorem mod (a b : Byte) : Statement (.mod a b) := by
  simp [Statement, encode, Instr.opcode, Instr.operandBytes, Instr.length, Instr.format, Format.length,
    Instr.regA, Instr.regB, opcodeList]

theorem cmp (a b : Byte) : Statement (.cmp a b) := by
  simp [Statement, encode, Instr.opcode, Instr.operandBytes, Instr.length, Instr.format, Format.length,
    Instr.regA, Instr.regB, opcodeList]

theorem and (a b : Byte) : Statement (.and a b) := by
  simp [Statement, encode, Instr.opcode, Instr.operandBytes, Instr.length, Instr.format, Format.length,
    Instr.regA, Instr.regB, opcodeList]

theorem or (a b : Byte) : Statement (.or a b) := by
  simp [Statement, encode, Instr.opcode, Instr.operandBytes, Instr.length, Instr.format, Format.length,
    Instr.regA, Instr.regB, opcodeList]

theorem xor (a b : Byte) : Statement (.xor a b) := by
  simp [Statement, encode, Instr.opcode, Instr.operandBytes, Instr.length, Instr.format, Format.length,
    Instr.regA, Instr.regB, opcodeList]

theorem shl (a b : Byte) : Statement (.shl a b) := by
  simp [Statement, encode, Instr.opcode, Instr.operandBytes, Instr.length, Instr.format, Format.length,
    Instr.regA, Instr.regB, opcodeList]

theorem shr (a b : Byte) : Statement (.shr a b) := by
  simp [Statement, encode, Instr.opcode, Instr.operandBytes, Instr.length, Instr.format, Format.length,
    Instr.regA, Instr.regB, opcodeList]

end Sys2Proof.Laws.EncodingShape
end

