-- ==== Sys2Proof/Tests/Slice0.lean ====
section
/-! SUPPORT. The model's own tests. Expected results are those of spec/95_test_vectors.md (the vector's id is in the comment) or of the
worked examples of the instruction's rule; encodings are written from 30_encoding.md R60 and R62. Then one witness per statement that
has hypotheses. -/

namespace Sys2Proof.Tests

open Sys2Proof Sys2Proof.Machine

/-- A running core at `pc` with the given bytes there, all else as after reset. -/
def codeAt (pc : Pc) (bytes : List Byte) : State :=
  { State.reset with mem := Memory.writeFrom [] pc.toNat bytes, pc := pc }

/-- The default start of 95_test_vectors.md: pc = 0x10. -/
def code (bytes : List Byte) : State := codeAt 0x10#9 bytes

/-- The outcome is a next state with the property. -/
def holds (r : Result) (p : State → Bool) : Bool :=
  match r with
  | .next t => p t
  | _ => false

/-- Faulted with this record. -/
def faultedBy (f : FaultRecord) (t : State) : Bool := t.run == .faulted f

/-! ### Well-formedness: each check refuses an ill-formed term -/

theorem test_wf_refuses_r_a : Instr.wellFormed (.push 0x08#8) = false := by decide
theorem test_wf_refuses_ri_a : Instr.wellFormed (.ldi 0x08#8 0x05#8) = false := by decide
theorem test_wf_refuses_rr_a : Instr.wellFormed (.add 0xFF#8 0x00#8) = false := by decide
theorem test_wf_refuses_rr_b : Instr.wellFormed (.add 0x00#8 0x08#8) = false := by decide
theorem test_wf_accepts : Instr.wellFormed (.ldi 0x07#8 0xFF#8) = true ∧ Instr.wellFormed (.add 0x07#8 0x07#8) = true := by decide

/-! ### Decoding: one word per constructor, byte 0 written bit by bit from 30_encoding.md R62 -/

theorem test_decode_z :
    decode [0b00000001#8, 0x00#8, 0x00#8] = .ok .hlt ∧ decode [0b00010001#8, 0xFF#8, 0xFF#8] = .ok .ret := by decide
theorem test_decode_r :
    decode [0b01000101#8, 0x01#8, 0x00#8] = .ok (.push 0x01#8) ∧ decode [0b01000110#8, 0x03#8, 0x00#8] = .ok (.pop 0x03#8) ∧
    decode [0b01000111#8, 0x00#8, 0x00#8] = .ok (.prn 0x00#8) ∧ decode [0b01101001#8, 0x02#8, 0xFF#8] = .ok (.not 0x02#8) := by
  decide
theorem test_decode_control :
    decode [0b01010000#8, 0x01#8, 0x00#8] = .ok (.call 0x01#8) ∧ decode [0b01010100#8, 0x02#8, 0x00#8] = .ok (.jmp 0x02#8) ∧
    decode [0b01010101#8, 0x03#8, 0x00#8] = .ok (.jeq 0x03#8) ∧ decode [0b01010110#8, 0x03#8, 0x00#8] = .ok (.jne 0x03#8) := by
  decide
theorem test_decode_ri : decode [0b10000010#8, 0x02#8, 0x10#8] = .ok (.ldi 0x02#8 0x10#8) := by decide
theorem test_decode_rr_arith :
    decode [0b10100000#8, 0x00#8, 0x01#8] = .ok (.add 0x00#8 0x01#8) ∧ decode [0b10100010#8, 0x02#8, 0x03#8] = .ok (.mul 0x02#8 0x03#8) ∧
    decode [0b10100100#8, 0x04#8, 0x05#8] = .ok (.mod 0x04#8 0x05#8) ∧ decode [0b10100111#8, 0x06#8, 0x07#8] = .ok (.cmp 0x06#8 0x07#8) := by
  decide
theorem test_decode_rr_bits :
    decode [0b10101000#8, 0x00#8, 0x01#8] = .ok (.and 0x00#8 0x01#8) ∧ decode [0b10101010#8, 0x02#8, 0x03#8] = .ok (.or 0x02#8 0x03#8) ∧
    decode [0b10101011#8, 0x04#8, 0x05#8] = .ok (.xor 0x04#8 0x05#8) ∧ decode [0b10101100#8, 0x06#8, 0x07#8] = .ok (.shl 0x06#8 0x07#8) ∧
    decode [0b10101101#8, 0x01#8, 0x00#8] = .ok (.shr 0x01#8 0x00#8) := by
  decide
/-- 0xA1 and 0xA3 are no opcodes of this machine (93_implementation_defined.md G7); a short list is rejected by its own name. -/
theorem test_decode_rejects :
    decode [0xA1#8, 0x00#8, 0x01#8] = .error (.invalidOpcode 0xA1#8) ∧ decode [0x00#8, 0x00#8, 0x00#8] = .error (.invalidOpcode 0x00#8) ∧
    decode [0x01#8, 0x00#8] = .error .shortWindow := by
  decide
/-- 30_encoding.md R71: ADD R0, R1 is A0 00 01, and LDI R2, 0x10 is 82 02 10. -/
theorem test_encode_and_asm :
    encode (.add 0x00#8 0x01#8) = [0xA0#8, 0x00#8, 0x01#8] ∧ encode (.ldi 0x02#8 0x10#8) = [0x82#8, 0x02#8, 0x10#8] ∧
    Instr.asm (.add 0x00#8 0x01#8) = some "ADD R0, R1" ∧ Instr.asm (.push 0x08#8) = none := by
  decide
theorem test_table_word : decodeTableWord 24 0x0100A0 = some (.add 0x00#8 0x01#8) ∧ decodeTableWord 8 0xFF01 = some .hlt := by decide

/-! ### One step each (95_test_vectors.md section 2) -/

/-- ADD1 -/
theorem test_add_wraps : holds (step (((code [0xA0#8, 0x00#8, 0x01#8]).setReg 0 200).setReg 1 100))
    (fun t => t.reg 0 == 44 && t.reg 1 == 100 && t.pc == 0x13#9) = true := by decide
/-- ADD5: a is checked before b -/
theorem test_add_bad_a_first : holds (step (code [0xA0#8, 0x08#8, 0x09#8]))
    (faultedBy (.registerIndex 0x08#8 .a 0x10#9)) = true := by decide
/-- MUL3 -/
theorem test_mul_low_byte : holds (step (((code [0xA2#8, 0x00#8, 0x01#8]).setReg 0 255).setReg 1 255))
    (fun t => t.reg 0 == 1 && t.pc == 0x13#9) = true := by decide
/-- MOD1 -/
theorem test_mod : holds (step (((code [0xA4#8, 0x00#8, 0x01#8]).setReg 0 10).setReg 1 3))
    (fun t => t.reg 0 == 1 && t.reg 1 == 3 && t.pc == 0x13#9) = true := by decide
/-- MOD4 -/
theorem test_mod_by_zero : holds (step (((code [0xA4#8, 0x00#8, 0x01#8]).setReg 0 10).setFl 0x04#8))
    (fun t => faultedBy (.divisionByZero 0x01#8 0x10#9) t && t.reg 0 == 10 && t.fl == 0x04#8 && t.pc == 0x10#9) = true := by decide
/-- AND1, OR1, XOR1 -/
theorem test_and : holds (step (((code [0xA8#8, 0x00#8, 0x01#8]).setReg 0 0xCC#8).setReg 1 0xAA#8)) (fun t => t.reg 0 == 0x88#8) = true := by
  decide
theorem test_or : holds (step (((code [0xAA#8, 0x00#8, 0x01#8]).setReg 0 0xCC#8).setReg 1 0xAA#8)) (fun t => t.reg 0 == 0xEE#8) = true := by
  decide
theorem test_xor : holds (step (((code [0xAB#8, 0x00#8, 0x01#8]).setReg 0 0xCC#8).setReg 1 0xAA#8)) (fun t => t.reg 0 == 0x66#8) = true := by
  decide
/-- NOT2: byte b = 0xFF is ignored and the length is 2 -/
theorem test_not_ignores_b : holds (step (code [0x69#8, 0x02#8, 0xFF#8])) (fun t => t.reg 2 == 0xFF#8 && t.pc == 0x12#9) = true := by decide
/-- SHL2: bit 7 is lost -/
theorem test_shl_drops_bit7 : holds (step (((code [0xAC#8, 0x00#8, 0x01#8]).setReg 0 0x81#8).setReg 1 1)) (fun t => t.reg 0 == 0x02#8) = true := by
  decide
/-- SHL6: the count is the whole byte -/
theorem test_shl_full_count : holds (step (((code [0xAC#8, 0x00#8, 0x01#8]).setReg 0 0xFF#8).setReg 1 255)) (fun t => t.reg 0 == 0) = true := by
  decide
/-- SHR3: logical -/
theorem test_shr_logical : holds (step (((code [0xAD#8, 0x00#8, 0x01#8]).setReg 0 0xFF#8).setReg 1 1)) (fun t => t.reg 0 == 0x7F#8) = true := by
  decide
/-- SHR4: a count of the full width -/
theorem test_shr_width : holds (step (((code [0xAD#8, 0x00#8, 0x01#8]).setReg 0 0xFF#8).setReg 1 8)) (fun t => t.reg 0 == 0) = true := by
  decide
/-- CMP1 -/
theorem test_cmp_less : holds (step (((code [0xA7#8, 0x00#8, 0x01#8]).setReg 0 5).setReg 1 7))
    (fun t => t.fl == 0x04#8 && t.reg 0 == 5 && t.pc == 0x13#9) = true := by decide
/-- CMP4: unsigned -/
theorem test_cmp_unsigned : holds (step (((code [0xA7#8, 0x00#8, 0x01#8]).setReg 0 0xFF#8).setReg 1 1)) (fun t => t.fl == 0x02#8) = true := by
  decide
/-- LDI5: the advance past the last fetchable instruction reaches 256 -/
theorem test_ldi_at_the_top : holds (step (codeAt 253#9 [0x82#8, 0x00#8, 0x07#8])) (fun t => t.reg 0 == 7 && t.pc == 256#9) = true := by
  decide
/-- LDI3 -/
theorem test_ldi_bad_a : holds (step (code [0x82#8, 0x08#8, 0x05#8])) (faultedBy (.registerIndex 0x08#8 .a 0x10#9)) = true := by decide
/-- PRN1 -/
theorem test_prn : holds (step ((code [0x47#8, 0x00#8]).setReg 0 72)) (fun t => t.out == [72] && t.pc == 0x12#9) = true := by decide
/-- PUSH1 and PUSH2 -/
theorem test_push : holds (step ((code [0x45#8, 0x01#8]).setReg 1 9)) (fun t => t.sp == 0xF2#8 && t.byteAt 0xF2 == 9 && t.pc == 0x12#9) = true := by
  decide
theorem test_push_wraps : holds (step (((code [0x45#8, 0x01#8]).setReg 1 9).setSp 0)) (fun t => t.sp == 0xFF#8 && t.byteAt 0xFF == 9) = true := by
  decide
/-- POP2: the empty stack -/
theorem test_pop_empty : holds (step ((code [0x46#8, 0x03#8]).setReg 3 5)) (fun t => t.reg 3 == 0 && t.sp == 0xF3#8 && t.pc == 0x12#9) = true := by
  decide
/-- POP4: only 0xF3 is special -/
theorem test_pop_above_base :
    holds (step (((code [0x46#8, 0x03#8]).setSp 0xF4#8).setMem (Memory.write (code [0x46#8, 0x03#8]).mem 0xF4 0x11#8)))
      (fun t => t.reg 3 == 0x11#8 && t.sp == 0xF5#8) = true := by decide
/-- CALL1 -/
theorem test_call : holds (step ((codeAt 0x0A#9 [0x50#8, 0x01#8]).setReg 1 0x20#8))
    (fun t => t.sp == 0xF2#8 && t.byteAt 0xF2 == 0x0C#8 && t.pc == 0x20#9) = true := by decide
/-- RET2: the empty stack has no special case -/
theorem test_ret_empty : holds (step (code [0x11#8])) (fun t => t.pc == 0#9 && t.sp == 0xF4#8) = true := by decide
/-- JMP2 -/
theorem test_jmp : holds (step ((code [0x54#8, 0x02#8]).setReg 2 0xFF#8)) (fun t => t.pc == 0xFF#9) = true := by decide
/-- JEQ1 and JEQ4: the index is checked though the branch is not taken -/
theorem test_jeq_taken : holds (step (((code [0x55#8, 0x03#8]).setReg 3 0x30#8).setFl 0x01#8)) (fun t => t.pc == 0x30#9) = true := by decide
theorem test_jeq_bad_untaken : holds (step (code [0x55#8, 0x08#8])) (faultedBy (.registerIndex 0x08#8 .a 0x10#9)) = true := by decide
/-- JNE2 and JNE3 -/
theorem test_jne_untaken : holds (step (((code [0x56#8, 0x03#8]).setReg 3 0x30#8).setFl 0x01#8)) (fun t => t.pc == 0x12#9) = true := by decide
theorem test_jne_before_cmp : holds (step ((code [0x56#8, 0x03#8]).setReg 3 0x30#8)) (fun t => t.pc == 0x30#9) = true := by decide
/-- HLT2 and HLT4 -/
theorem test_hlt_253 : holds (step (codeAt 253#9 [0x01#8])) (fun t => t.run == .halted && t.pc == 253#9) = true := by decide
theorem test_hlt_255_faults : holds (step (codeAt 255#9 [0x01#8])) (faultedBy (.memoryBounds 256 255#9)) = true := by decide
/-- PC256, INV3 and INV4 -/
theorem test_pc_256 : holds (step (codeAt 256#9 [])) (faultedBy (.memoryBounds 256 256#9)) = true := by decide
theorem test_invalid : holds (step (code [0xFF#8])) (faultedBy (.invalidInstruction 0xFF#8 0x10#9)) = true := by decide
theorem test_invalid_254 : holds (step (codeAt 254#9 [0x00#8])) (faultedBy (.memoryBounds 256 254#9)) = true := by decide
/-- The word a table row stands for, placed after reset, is what the first step runs (R83). -/
theorem test_placed_word_runs : holds (step (State.reset.withFetchWord 8 0x01)) (fun t => t.run == .halted && t.pc == 0#9) = true := by decide
/-- A launch (R201, R207): the image at address 0, the rest 0x00, and the first step runs the instruction at pc = 0. -/
theorem test_launch :
    (match transactAll [.load [0x82#8, 0x00#8, 0x08#8], .start] .constructed with
      | .next (.started t) => t.byteAt 0 == 0x82#8 && t.byteAt 3 == 0 && t.sp == 0xF3#8 &&
          holds (step t) (fun u => u.reg 0 == 0x08#8 && u.pc == 3#9)
      | _ => false) = true := by decide
/-- A Load into a halted machine is refused (R207: "before the run only"). -/
theorem test_load_after_run : transact (.load [0x01#8]) (.started State.reset.halt) = .refused .loadOutOfOrder := rfl
/-- The status of a fault names the fault (60_exceptions.md R182; INV3's byte 0xFF). -/
theorem test_status_diagnostic : holds (step (code [0xFF#8]))
    (fun t => (status t).map (·.diagnostic) == some (some (.invalidInstruction 0xFF#8 0x10#9))) = true := by decide

/-! ### Witnesses: concrete states and operands that meet the hypotheses of each statement that has some -/

theorem inv_of_running {s : State} (hm : Memory.wf s.mem) (hp : s.pc.toNat ≤ 256) (hf : s.fl = 0) (hr : s.run = .running) : State.Inv s :=
  ⟨hm, hp, .inl hf, by simp [hr], by simp [hr]⟩

theorem witness_StepKeepsInvariant : ∃ t, State.Inv (code [0x01#8]) ∧ step (code [0x01#8]) = .next t :=
  ⟨_, inv_of_running (by decide) (by decide) rfl rfl, rfl⟩
/-- The invariant's clauses for a Halted and for a Faulted core are met by states too. -/
theorem witness_Inv_halted_and_faulted :
    State.Inv (code [0x01#8]).halt ∧ State.Inv ((code [0xFF#8]).enterFault (.invalidInstruction 0xFF#8 0x10#9)) :=
  ⟨⟨by decide, by decide, .inl rfl, fun _ => by decide, by simp⟩,
   ⟨by decide, by decide, .inl rfl, by simp, fun f h => by cases h; exact ⟨rfl, by decide, by decide, by decide⟩⟩⟩
/-- A true RegisterIndex record for operand b of ADD, and a false one: LDI's immediate is no register operand, however large. -/
theorem witness_FaultCause_registerIndex :
    FaultCause (code [0xA0#8, 0x07#8, 0x08#8]) (.registerIndex 0x08#8 .b 0x10#9) ∧
    ¬ FaultCause (code [0x82#8, 0x07#8, 0x08#8]) (.registerIndex 0x08#8 .b 0x10#9) := by
  refine ⟨⟨rfl, by decide, by decide, by decide, .add 0x07#8 0x08#8, rfl, rfl, 7, rfl⟩, ?_⟩
  rintro ⟨-, -, -, -, i, hi, hb, -⟩
  have hi : decodeWindow 0x82#8 0x07#8 0x08#8 = .ok i := hi
  cases hi
  cases hb
theorem witness_LoadWritesImage :
    (List.replicate 256 0x01#8).length ≤ 256 ∧ 256 < (List.replicate 257 0x01#8).length := by
  exact ⟨by rw [List.length_replicate], by rw [List.length_replicate]; decide⟩
theorem witness_DecodeEncode : 3 ≤ (encode .hlt ++ [0xFF#8, 0xFF#8]).length ∧ 3 ≤ (encode (.add 0#8 1#8) ++ []).length := by decide
theorem witness_EncodeDecode : decodeWindow 0x69#8 0xFF#8 0xFF#8 = .ok (.not 0xFF#8) := by decide
theorem witness_OpcodeMapExact : 0x00#8 ∉ opcodeList ∧ 0xFF#8 ∉ opcodeList ∧ 0xAD#8 ∈ opcodeList := by decide
theorem witness_StepRunsDecodedInstruction :
    (codeAt 253#9 [0x82#8, 0x00#8, 0x07#8]).Ready ∧
    decodeWindow ((codeAt 253#9 [0x82#8, 0x00#8, 0x07#8]).byteAt 253) ((codeAt 253#9 [0x82#8, 0x00#8, 0x07#8]).byteAt 254)
      ((codeAt 253#9 [0x82#8, 0x00#8, 0x07#8]).byteAt 255) = .ok (.ldi 0x00#8 0x07#8) := by decide
/-- k = 2 at pc 254, k = 1 at 255, k = 0 at 256; at 253 each of the three clauses. -/
theorem witness_StepFollowsPseudocode :
    ((∀ j, j < 2 → 254 + j ≤ 255) ∧ 255 < (codeAt 254#9 []).pc.toNat + 2) ∧
    ((∀ j, j < 1 → 255 + j ≤ 255) ∧ 255 < (codeAt 255#9 []).pc.toNat + 1) ∧ 255 < (codeAt 256#9 []).pc.toNat + 0 ∧
    ((codeAt 253#9 [0x01#8]).pc.toNat + 2 ≤ 255 ∧ (codeAt 253#9 [0x01#8]).byteAt 253 = 0x01#8) ∧
    (codeAt 253#9 [0x02#8]).byteAt 253 ∉ opcodeList ∧
    ((codeAt 253#9 [0x11#8]).byteAt 253 ∈ opcodeList ∧ (codeAt 253#9 [0x11#8]).byteAt 253 ≠ 0x01#8) := by
  refine ⟨⟨by omega, by decide⟩, ⟨by omega, by decide⟩, by decide, by decide, by decide, by decide⟩
theorem witness_FetchAboveMemoryFaults : (codeAt 254#9 []).run = .running ∧ 253 < (codeAt 254#9 []).pc.toNat := by decide
theorem witness_HaltStopsTheCore : (codeAt 253#9 [0x01#8]).Ready ∧ (codeAt 253#9 [0x01#8]).byteAt 253 = 0x01#8 := by decide
theorem witness_InvalidOpcodeFaults : (codeAt 253#9 [0xAE#8]).Ready ∧ (codeAt 253#9 [0xAE#8]).byteAt 253 ∉ opcodeList := by decide
theorem witness_StepHasThreeOutcomes : State.reset.run = .running := by decide
theorem witness_TerminalStatesHaveNoStep :
    State.reset.halt.run = .halted ∧ (State.reset.enterFault (.memoryBounds 256 256#9)).run = .faulted (.memoryBounds 256 256#9) := by decide
theorem witness_BadRegisterIndexFaults :
    (0x07#8 : Byte).toNat ≤ 7 ∧ Instr.wellFormed (.jeq 0x08#8) = false ∧ Instr.wellFormed (.cmp 0x07#8 0x08#8) = false := by decide
theorem witness_ChecksRunInOrder :
    firstFailure (.mod 0x08#8 0x08#8) State.reset = some (.registerIndex 0x08#8 .a 0#9) ∧
    firstFailure (.mod 0x07#8 0x08#8) State.reset = some (.registerIndex 0x08#8 .b 0#9) ∧
    firstFailure (.mod 0x07#8 0x07#8) State.reset = some (.divisionByZero 0x07#8 0#9) ∧
    firstFailure (.mod 0x07#8 0x07#8) (State.reset.setReg 7 1) = none ∧ firstFailure .hlt State.reset = none := by decide
theorem witness_FaultingStepChangesOnlyRun :
    ∃ t, step (code [0xA4#8, 0x07#8, 0x07#8]) = .next t ∧ t.run = .faulted (.divisionByZero 0x07#8 0x10#9) := ⟨_, rfl, rfl⟩
theorem witness_FaultRecordTellsCause :
    (∃ t, step (code [0xFF#8]) = .next t ∧ t.run = .faulted (.invalidInstruction 0xFF#8 0x10#9)) ∧
    (∃ t, step (code [0xA4#8, 0x00#8, 0x00#8]) = .next t ∧ t.run = .faulted (.divisionByZero 0x00#8 0x10#9)) ∧
    (∃ t, step (codeAt 254#9 []) = .next t ∧ t.run = .faulted (.memoryBounds 256 254#9)) ∧
    (∃ t, step (code [0xA0#8, 0x00#8, 0x08#8]) = .next t ∧ t.run = .faulted (.registerIndex 0x08#8 .b 0x10#9)) :=
  ⟨⟨_, rfl, rfl⟩, ⟨_, rfl, rfl⟩, ⟨_, rfl, rfl⟩, ⟨_, rfl, rfl⟩⟩
theorem witness_ExitStatusOfTheRun :
    State.reset.run = .running ∧ State.reset.halt.run = .halted ∧ State.reset.halt.run ≠ .running ∧
    (State.reset.enterFault (.invalidInstruction 0x00#8 0#9)).run = .faulted (.invalidInstruction 0x00#8 0#9) ∧
    (State.reset.enterFault (.divisionByZero 0x01#8 0#9)).run = .faulted (.divisionByZero 0x01#8 0#9) ∧
    (State.reset.enterFault (.memoryBounds 256 256#9)).run = .faulted (.memoryBounds 256 256#9) ∧
    (State.reset.enterFault (.registerIndex 0x08#8 .a 0#9)).run = .faulted (.registerIndex 0x08#8 .a 0#9) := by decide
/-- The hypotheses of the two index clauses of format RR: a = 8; and a = 7 with b = 8. -/
theorem witness_AddRule_MulRule_ModRule_AndRule_OrRule_XorRule_ShlRule_ShrRule_CmpRule :
    7 < (0x08#8 : Byte).toNat ∧ ((0x07#8 : Byte).toNat ≤ 7 ∧ 7 < (0x08#8 : Byte).toNat) := by decide
/-- The hypothesis of the index clause of formats R and RI: a = 8, and the largest byte. -/
theorem witness_NotRule_LdiRule_PrnRule_PushRule_PopRule_CallRule_JmpRule_JeqRule_JneRule :
    7 < (0x08#8 : Byte).toNat ∧ 7 < (0xFF#8 : Byte).toNat := by decide
theorem witness_ShlRule_ShrRule_wide_count : 8 ≤ (0x08#8 : Byte).toNat := by decide
theorem witness_ModRule : (State.reset.setReg 7 1).reg 7 ≠ 0 ∧ State.reset.reg 7 = 0 := by decide
/-- AdvancesPc speaks of every fetchable pc. -/
theorem witness_AdvancesPc : (codeAt 253#9 []).pc.toNat ≤ 253 := by decide
theorem witness_CallRule : (codeAt 253#9 [0x50#8, 0x00#8]).pc.toNat ≤ 253 := by decide
theorem witness_JmpRule :
    ((code [0x54#8, 0x02#8]).setReg 2 0x10#8).Ready ∧ ((code [0x54#8, 0x02#8]).setReg 2 0x10#8).byteAt 0x10 = 0x54#8 ∧
    ((code [0x54#8, 0x02#8]).setReg 2 0x10#8).byteAt (0x10 + 1) = regByte 2 ∧
    (((code [0x54#8, 0x02#8]).setReg 2 0x10#8).reg 2).toNat = ((code [0x54#8, 0x02#8]).setReg 2 0x10#8).pc.toNat := by decide
theorem witness_JmpRule_to_the_top :
    (State.reset.setReg 2 0xFE#8).run = .running ∧ 253 < ((State.reset.setReg 2 0xFE#8).reg 2).toNat ∧
    ∃ t, exec (.jmp (regByte 2)) (State.reset.setReg 2 0xFE#8) = .next t := ⟨rfl, by decide, _, rfl⟩
theorem witness_JeqRule_JneRule : (State.reset.setFl 0x01#8).isE = true ∧ (State.reset.setFl 0x04#8).isE = false := by decide
theorem witness_OnlyCmpTouchesFlags :
    Instr.isCmp (.push 0x00#8) = false ∧ (∃ t, exec (.push 0x00#8) State.reset = .next t) ∧
    (∃ t, exec (.jeq (regByte 0)) (State.reset.setFl 0x01#8) = .next t ∧ (State.reset.setFl 0x01#8).isE = true) ∧
    (∃ t, exec (.jeq (regByte 0)) State.reset = .next t ∧ State.reset.isE = false) ∧
    (∃ t, exec (.jne (regByte 0)) State.reset = .next t ∧ State.reset.isE = false) ∧
    (∃ t, exec (.jne (regByte 0)) (State.reset.setFl 0x01#8) = .next t ∧ (State.reset.setFl 0x01#8).isE = true) ∧
    State.isE { State.reset with fl := 0x04#8 } = State.reset.isE :=
  ⟨rfl, ⟨_, rfl⟩, ⟨_, rfl, rfl⟩, ⟨_, rfl, rfl⟩, ⟨_, rfl, rfl⟩, ⟨_, rfl, rfl⟩, rfl⟩
theorem witness_RegisterReadersAndWriters :
    (∃ t, exec (.ldi 0x07#8 0x05#8) State.reset = .next t ∧ t.reg 7 ≠ State.reset.reg 7) ∧
    (∀ r : RegIdx, regByte r ∈ Instr.readRegs (.prn 0x00#8) → (State.reset.setReg 7 9).reg r = State.reset.reg r) :=
  ⟨⟨_, rfl, by decide⟩, by decide⟩
theorem witness_MemoryAndSpWriters :
    ∃ t, exec (.push 0x01#8) (State.reset.setReg 1 9) = .next t ∧ t.byteAt 0xF2 ≠ (State.reset.setReg 1 9).byteAt 0xF2 ∧
      t.sp ≠ (State.reset.setReg 1 9).sp := ⟨_, rfl, by decide, by decide⟩
theorem witness_OnlyPrnEmits : ∃ t, exec (.prn 0x00#8) State.reset = .next t ∧ t.out ≠ State.reset.out := ⟨_, rfl, by decide⟩
theorem witness_HowEachInstructionLeavesPc :
    (State.reset.pc.toNat ≤ 253 ∧ firstFailure .hlt State.reset = none ∧ ∃ t, exec .hlt State.reset = .next t) ∧
    (redirects State.reset (.jne 0x07#8) = true ∧ firstFailure (.jne 0x07#8) State.reset = none ∧ ∃ t, exec (.jne 0x07#8) State.reset = .next t) ∧
    (redirects (codeAt 253#9 []) (.ldi 0x07#8 0x01#8) = false ∧ firstFailure (.ldi 0x07#8 0x01#8) (codeAt 253#9 []) = none ∧
      ∃ t, exec (.ldi 0x07#8 0x01#8) (codeAt 253#9 []) = .next t) :=
  ⟨⟨by decide, by decide, _, rfl⟩, ⟨by decide, by decide, _, rfl⟩, ⟨by decide, by decide, _, rfl⟩⟩
theorem witness_StackRoundTrip : State.reset.sp ≠ 0xF4#8 ∧ (State.reset.setSp 0xF4#8).sp = 0xF4#8 := by decide
theorem witness_CallReturnRoundTrip :
    ∃ t, (codeAt 253#9 []).pc.toNat ≤ 253 ∧ exec (.call (regByte 0)) (codeAt 253#9 []) = .next t ∧
      (t.setFl 0x01#8).sp = t.sp ∧ (t.setFl 0x01#8).byteAt (t.setFl 0x01#8).sp.toNat = t.byteAt t.sp.toNat :=
  ⟨_, by decide, rfl, rfl, rfl⟩
theorem witness_CompareThenBranch :
    (∀ i ∈ [Instr.prn 0x00#8, Instr.ldi 0x00#8 0x09#8], i.isCmp = false) ∧
    ∃ c u, exec (.cmp (regByte 0) (regByte 1)) State.reset = .next c ∧ execAll [.prn 0x00#8, .ldi 0x00#8 0x09#8] c = .next u ∧
      State.reset.reg 0 = State.reset.reg 1 ∧ (State.reset.setReg 0 5).reg 0 ≠ (State.reset.setReg 0 5).reg 1 :=
  ⟨by decide, _, _, rfl, rfl, by decide, by decide⟩
theorem witness_CallOverItsOwnOperand :
    ((code [0x50#8, 0x01#8]).setSp 0x12#8).Ready ∧ ((code [0x50#8, 0x01#8]).setSp 0x12#8).byteAt 0x10 = 0x50#8 ∧
    ((code [0x50#8, 0x01#8]).setSp 0x12#8).byteAt (0x10 + 1) = regByte 1 ∧
    ((code [0x50#8, 0x01#8]).setSp 0x12#8).sp.toNat = ((code [0x50#8, 0x01#8]).setSp 0x12#8).pc.toNat + 2 := by decide
theorem witness_FetchSeesPushedByte :
    ∃ t, exec (.push (regByte 0)) State.reset = .next t ∧ KeepsMem t (t.jump 0xF2#8) ∧
      (t.jump 0xF2#8).pc.toNat = t.sp.toNat ∧ (t.jump 0xF2#8).pc.toNat ≤ 253 := ⟨_, rfl, fun _ => rfl, by decide, by decide⟩
theorem witness_MemoryAccesses : 255 ≤ 255 ∧ 255 < 256 ∧ Memory.wf State.reset.mem := by decide
theorem witness_CanonicalMemoryIsUnique :
    Memory.wf [(5, 0x01#8), (255, 0x02#8)] ∧
    ∀ a, a < 256 → Memory.read [(5, 0x01#8), (255, 0x02#8)] a = Memory.read (Memory.write [(255, 0x02#8)] 5 0x01#8) a :=
  ⟨by decide, fun _ _ => rfl⟩
theorem witness_RunKeepsInvariant :
    State.Inv State.reset ∧ (∃ y, State.Inv (Session.constructed).state ∧ transact (.load [0x01#8]) .constructed = .next y) ∧
    ∃ x, transactAll [.load [0x01#8], .start, .step] .constructed = .next x :=
  have h : State.Inv State.reset := inv_of_running (by decide) (by decide) rfl rfl
  ⟨h, ⟨_, h, rfl⟩, _, rfl⟩
theorem witness_TransactionsHaveOnePlace :
    Session.loaded [] ≠ .constructed ∧ Session.started State.reset.halt ≠ .constructed ∧ (∀ mem, Session.constructed ≠ .loaded mem) ∧
    (∀ mem, Session.started State.reset ≠ .loaded mem) ∧ (∀ s, Session.loaded [] ≠ .started s) ∧
    ∃ y, transact .step (.started State.reset) = .next y := by
  exact ⟨by decide, by decide, by simp, by simp, by simp, _, rfl⟩
/-- An empty list, a Load alone, and a Load, a Start and a step. -/
theorem witness_EveryLaunchIsLoadStartRun :
    transactAll [] .constructed = .next .constructed ∧ (∃ x, transactAll [.load [0x01#8]] .constructed = .next x) ∧
    ∃ x, transactAll (.load [0x01#8] :: .start :: List.replicate 1 .step) .constructed = .next x := ⟨rfl, ⟨_, rfl⟩, _, rfl⟩
/-- A core that goes on for two steps, one that halts in its second, and one that faults in its first. -/
theorem witness_RunEndsByHaltOrFault :
    (runFor 2 (code [0x47#8, 0x00#8, 0x47#8, 0x00#8])).run = .running ∧
    (code [0x47#8, 0x00#8, 0x01#8]).run = .running ∧ (runFor 2 (code [0x47#8, 0x00#8, 0x01#8])).run = .halted ∧
    (runFor 1 (code [0xFF#8])).run = .faulted (.invalidInstruction 0xFF#8 0x10#9) := by decide
theorem witness_PlacedTableWordRuns : decodeTableWord 8 0x11 = some .ret ∧ decodeTableWord 24 0x080082 = some (.ldi 0x00#8 0x08#8) := by decide

end Sys2Proof.Tests
end

/-! The run state a step ends in, and the end of a run (00_scope.md section 5; 40_loop_dispatch.md section 1). -/

namespace Sys2Proof.Machine

/-! ### No handler but HLT's writes `run` -/

/-- What a computation completes with, if it does, has the run state of `s`. -/
def KeepsRun (s : State) (c : Check State) : Prop := ∀ t, c = .ok t → t.run = s.run

theorem keepsRun_ok {s t : State} (h : t.run = s.run) : KeepsRun s (.ok t) := by
  rintro _ ⟨⟩
  exact h

theorem keepsRun_error (s : State) (f : FaultRecord) : KeepsRun s (.error f) := nofun

theorem keepsRun_bind {α : Type} {s : State} {x : Check α} {k : α → Check State}
    (h : ∀ a, x = .ok a → KeepsRun s (k a)) : KeepsRun s (x >>= k) := by
  cases x with
  | ok a => exact h a rfl
  | error f => exact keepsRun_error s f

theorem keepsRun_pushByte (v : Byte) (s : State) : KeepsRun s (pushByte v s) := by
  rw [pushByte_eq]
  exact keepsRun_ok rfl

@[simp] theorem raiseSpUnlessEmpty_run (s : State) : (raiseSpUnlessEmpty s).run = s.run := by
  simp [raiseSpUnlessEmpty_eq]

/-- Every handler but HLT's is the completion of a computation that does not write `run`. -/
theorem exec_eq_complete {i : Instr} (hi : i ≠ .hlt) (s : State) :
    ∃ c, exec i s = complete s c ∧ KeepsRun s c := by
  cases i with
  | hlt => exact absurd rfl hi
  | push | call =>
    exact ⟨_, rfl, keepsRun_bind fun _ _ => keepsRun_bind fun t ht => keepsRun_ok (keepsRun_pushByte _ s t ht)⟩
  | pop =>
    exact ⟨_, rfl, keepsRun_bind fun _ _ => keepsRun_bind fun _ _ => keepsRun_ok (raiseSpUnlessEmpty_run _)⟩
  | jeq | jne => exact ⟨_, rfl, keepsRun_bind fun _ _ => keepsRun_ok (by split <;> rfl)⟩
  | mod =>
    refine ⟨_, rfl, keepsRun_bind fun _ _ => ?_⟩
    dsimp only
    split
    · exact keepsRun_error _ _
    · exact keepsRun_ok rfl
  | ret | prn | jmp | not | ldi | add | mul | cmp | and | or | xor | shl | shr =>
    exact ⟨_, rfl, keepsRun_bind fun _ _ => keepsRun_ok rfl⟩

/-- Everything an instruction but HLT can do to the run: it goes on as it was, or the instruction's fault is taken. -/
theorem exec_keepsRun_or_faults {i : Instr} (hi : i ≠ .hlt) (s : State) :
    ∃ t, exec i s = .next t ∧ (t.run = s.run ∨ ∃ f, t = s.enterFault f) := by
  obtain ⟨c, hc, hrun⟩ := exec_eq_complete hi s
  obtain ⟨t, ht⟩ := complete_next s c
  refine ⟨t, hc.trans ht, ?_⟩
  obtain hok | ⟨f, -, hf⟩ := complete_cases ht
  · exact .inl (hrun t hok)
  · exact .inr ⟨f, hf⟩

/-! ### Which step halts -/

/-- HLT is decoded from its one opcode, whatever the operand bytes (30_encoding.md R62, R65). -/
theorem decodeWindow_eq_hlt {op0 op1 op2 : Byte} : decodeWindow op0 op1 op2 = .ok .hlt ↔ op0 = Config.haltOpcode := by
  constructor
  · intro h
    unfold decodeWindow at h
    split at h
    · rfl
    all_goals cases h
  · rintro rfl
    rfl

/-- A window without the HALT opcode is dispatched without halting. -/
theorem dispatchWindow_keepsRun_or_faults {w : Window} (hw : w.op0 ≠ Config.haltOpcode) (s : State) :
    ∃ t, dispatchWindow w s = .next t ∧ (t.run = s.run ∨ ∃ f, t = s.enterFault f) := by
  unfold dispatchWindow
  split
  · next i hi => exact exec_keepsRun_or_faults (fun h => hw (decodeWindow_eq_hlt.mp (h ▸ hi))) s
  · exact ⟨_, rfl, .inr ⟨_, rfl⟩⟩

/-- The HALT test of the loop (40_loop_dispatch.md R82). -/
theorem step_halt {s : State} (h : s.Ready) (hb : s.byteAt s.pc.toNat = Config.haltOpcode) : step s = .next s.halt := by
  rw [step_ready h, dispatchWindow, decodeWindow_eq_hlt.mpr hb]
  rfl

/-- Any other step of a running core goes on or takes a fault: its fetch, its opcode or its handler raised. -/
theorem step_runs_or_faults {s : State} (hr : s.run = .running)
    (h : ¬ (s.pc.toNat ≤ 253 ∧ s.byteAt s.pc.toNat = Config.haltOpcode)) :
    ∃ t, step s = .next t ∧ (t.run = .running ∨ ∃ f, t = s.enterFault f) := by
  by_cases hp : s.pc.toNat ≤ 253
  · rw [step_ready ⟨hr, hp⟩, ← hr]
    exact dispatchWindow_keepsRun_or_faults (fun hb => h ⟨hp, hb⟩) s
  · exact ⟨_, step_fetch_fault hr (by omega), .inr ⟨_, rfl⟩⟩

end Sys2Proof.Machine

section
open Sys2Proof Sys2Proof.Machine

/-- Settles O14: the step of a running core that fetches HALT halts, and every other one goes on or faults. -/
theorem stepHasThreeOutcomes : Obligations.StepHasThreeOutcomes := by
  intro s hr
  by_cases h : s.pc.toNat ≤ 253 ∧ s.byteAt s.pc.toNat = Config.haltOpcode
  · obtain ⟨hp, hb⟩ := h
    exact ⟨s.halt, step_halt ⟨hr, hp⟩ hb, .inr (.inl rfl), fun _ => ⟨hp, hb⟩, fun _ => rfl⟩
  · obtain ⟨t, ht, hrun | ⟨f, rfl⟩⟩ := step_runs_or_faults hr h
    · exact ⟨t, ht, .inl hrun, fun hh => by simp [hrun] at hh, fun hh => absurd hh h⟩
    · exact ⟨_, ht, .inr (.inr ⟨f, rfl⟩), nofun, fun hh => absurd hh h⟩

/-- Settles O15: a core with a next state is running, so an ended run has none and stays where it is. -/
theorem terminalStatesHaveNoStep : Obligations.TerminalStatesHaveNoStep := by
  intro s h
  have hne : s.run ≠ .running := by
    obtain h | ⟨f, h⟩ := h <;> simp [h]
  exact ⟨fun _ ht => hne (running_of_step ht), runFor_ended hne⟩

end

/-! Register operands out of range (10_state.md section 1), and the flags register (10_state.md section 4). -/

namespace Sys2Proof.Machine

/-! ### The check of a register operand -/

/-- An index above 7 in operand a is the first check of every instruction that has an operand a (60_exceptions.md R184). -/
theorem exec_badA {i : Instr} {a : Byte} (ha : i.regA = some a) (h : 7 < a.toNat) (s : State) :
    exec i s = .next (s.enterFault (.registerIndex a .a s.pc)) := by
  cases i with
  | hlt | ret => cases ha
  | push | pop | prn | call | jmp | jeq | jne | not | ldi =>
    cases ha
    simp [exec, execPush, execPop, execPrn, execCall, execJmp, execJeq, execJne, execNot, execLdi, checkReg_bad h]
  | mod | cmp =>
    cases ha
    simp [exec, execMod, execCmp, checkRegs_badA h]
  | add | mul | and | or | xor | shl | shr =>
    cases ha
    exact aluBinary_badA h

/-- An index above 7 in operand b is reported where operand a names a register (60_exceptions.md R184). -/
theorem exec_badB {i : Instr} {r : RegIdx} {b : Byte} (ha : i.regA = some (regByte r)) (hb : i.regB = some b)
    (h : 7 < b.toNat) (s : State) : exec i s = .next (s.enterFault (.registerIndex b .b s.pc)) := by
  cases i with
  | hlt | ret | push | pop | prn | call | jmp | jeq | jne | not | ldi => cases hb
  | mod | cmp =>
    cases ha
    cases hb
    simp [exec, execMod, execCmp, checkRegs_badB h]
  | add | mul | and | or | xor | shl | shr =>
    cases ha
    cases hb
    exact aluBinary_badB h

theorem regByteOk_iff {a : Byte} : regByteOk a = true ↔ ∃ r : RegIdx, a = regByte r := by
  constructor
  · intro h
    exact exists_regByte (of_decide_eq_true h)
  · rintro ⟨r, rfl⟩
    have := r.isLt
    exact decide_eq_true (by rw [regByte_toNat]; omega)

theorem exists_regA_of_wellFormed {i : Instr} {a : Byte} (hw : i.wellFormed = true) (ha : i.regA = some a) :
    ∃ r : RegIdx, a = regByte r := by
  simp only [Instr.wellFormed, ha, Option.all_some, Bool.and_eq_true] at hw
  exact regByteOk_iff.mp hw.1

theorem exists_regB_of_wellFormed {i : Instr} {b : Byte} (hw : i.wellFormed = true) (hb : i.regB = some b) :
    ∃ r : RegIdx, b = regByte r := by
  simp only [Instr.wellFormed, hb, Option.all_some, Bool.and_eq_true] at hw
  exact regByteOk_iff.mp hw.2

/-- Only format RR has an operand b that names a register, and it has an operand a (30_encoding.md R63). -/
theorem exists_regA_of_regB {i : Instr} {b : Byte} (hb : i.regB = some b) : ∃ a, i.regA = some a := by
  cases i with
  | hlt | ret | push | pop | prn | call | jmp | jeq | jne | not | ldi => cases hb
  | add | mul | mod | cmp | and | or | xor | shl | shr => exact ⟨_, rfl⟩

/-- An ill-formed instruction has one operand byte that it faults on in every state. -/
theorem exec_of_illFormed {i : Instr} (hw : i.wellFormed = false) : ∃ (index : Byte) (slot : OperandSlot),
    7 < index.toNat ∧ ((slot = .a ∧ i.regA = some index) ∨ (slot = .b ∧ i.regB = some index)) ∧
    ∀ s : State, exec i s = .next (s.enterFault (.registerIndex index slot s.pc)) := by
  by_cases hbadA : ∃ a, i.regA = some a ∧ 7 < a.toNat
  · obtain ⟨a, ha, h⟩ := hbadA
    exact ⟨a, .a, h, .inl ⟨rfl, ha⟩, exec_badA ha h⟩
  · have hokA : ∀ a, i.regA = some a → ∃ r : RegIdx, a = regByte r := fun a ha =>
      (regByte_cases a).resolve_right fun h => hbadA ⟨a, ha, h⟩
    have hallA : i.regA.all regByteOk = true := by
      rw [Option.all_eq_true]
      exact fun a ha => regByteOk_iff.mpr (hokA a ha)
    rw [Instr.wellFormed, hallA, Bool.true_and, Option.all_eq_false] at hw
    obtain ⟨b, hb, hbad⟩ := hw
    have h : 7 < b.toNat := (regByte_cases b).resolve_left fun hr => by simp [regByteOk_iff.mpr hr] at hbad
    obtain ⟨a, ha⟩ := exists_regA_of_regB hb
    obtain ⟨r, rfl⟩ := hokA a ha
    exact ⟨b, .b, h, .inr ⟨rfl, hb⟩, exec_badB ha hb h⟩

/-! ### Another value in `fl` -/

/-- With `v` in `fl` the instruction does what it does in `s`, and leaves `v` there. -/
def CarriesFl (v : Byte) (i : Instr) (s : State) : Prop :=
  ∃ t, exec i s = .next t ∧ exec i (s.setFl v) = .next (t.setFl v)

theorem carriesFl_of_illFormed {i : Instr} (hw : i.wellFormed = false) (v : Byte) (s : State) : CarriesFl v i s := by
  obtain ⟨index, slot, -, -, hexec⟩ := exec_of_illFormed hw
  exact ⟨_, hexec s, hexec (s.setFl v)⟩

/-- A well-formed MOD carries `fl` whether it divides or faults on a zero divisor. -/
theorem carriesFl_mod (v : Byte) (a b : RegIdx) (s : State) : CarriesFl v (.mod (regByte a) (regByte b)) s := by
  by_cases h : s.reg b = 0
  · exact ⟨_, execMod_zero h, execMod_zero (s := s.setFl v) h⟩
  · exact ⟨_, execMod_regByte h, execMod_regByte (s := s.setFl v) h⟩

/-- Of `fl`, JEQ reads E alone. -/
theorem carriesFl_jeq {v : Byte} {s : State} (hE : (s.setFl v).isE = s.isE) (a : RegIdx) :
    CarriesFl v (.jeq (regByte a)) s := by
  refine ⟨_, execJeq_regByte a s, (execJeq_regByte a (s.setFl v)).trans ?_⟩
  rw [hE]
  split <;> rfl

/-- Of `fl`, JNE reads E alone. -/
theorem carriesFl_jne {v : Byte} {s : State} (hE : (s.setFl v).isE = s.isE) (a : RegIdx) :
    CarriesFl v (.jne (regByte a)) s := by
  refine ⟨_, execJne_regByte a s, (execJne_regByte a (s.setFl v)).trans ?_⟩
  rw [hE]
  split <;> rfl

/-- Every instruction but CMP carries a value of `fl` with the same E (10_state.md R27). -/
theorem carriesFl_of_not_cmp {i : Instr} (hc : i.isCmp = false) {v : Byte} {s : State}
    (hE : (s.setFl v).isE = s.isE) : CarriesFl v i s := by
  cases hw : i.wellFormed with
  | false => exact carriesFl_of_illFormed hw v s
  | true =>
    have hA := fun a => exists_regA_of_wellFormed (a := a) hw
    have hB := fun b => exists_regB_of_wellFormed (b := b) hw
    cases i with
    | cmp => cases hc
    | hlt => exact ⟨_, rfl, rfl⟩
    | ret => exact ⟨_, execRet_eq s, execRet_eq (s.setFl v)⟩
    | push a =>
      obtain ⟨ra, rfl⟩ := hA a rfl
      exact ⟨_, execPush_regByte ra s, execPush_regByte ra (s.setFl v)⟩
    | pop a =>
      obtain ⟨ra, rfl⟩ := hA a rfl
      exact ⟨_, execPop_regByte ra s, execPop_regByte ra (s.setFl v)⟩
    | prn a =>
      obtain ⟨ra, rfl⟩ := hA a rfl
      exact ⟨_, execPrn_regByte ra s, execPrn_regByte ra (s.setFl v)⟩
    | call a =>
      obtain ⟨ra, rfl⟩ := hA a rfl
      exact ⟨_, execCall_regByte ra s, execCall_regByte ra (s.setFl v)⟩
    | jmp a =>
      obtain ⟨ra, rfl⟩ := hA a rfl
      exact ⟨_, execJmp_regByte ra s, execJmp_regByte ra (s.setFl v)⟩
    | jeq a =>
      obtain ⟨ra, rfl⟩ := hA a rfl
      exact carriesFl_jeq hE ra
    | jne a =>
      obtain ⟨ra, rfl⟩ := hA a rfl
      exact carriesFl_jne hE ra
    | not a =>
      obtain ⟨ra, rfl⟩ := hA a rfl
      exact ⟨_, execNot_regByte ra s, execNot_regByte ra (s.setFl v)⟩
    | ldi a imm =>
      obtain ⟨ra, rfl⟩ := hA a rfl
      exact ⟨_, execLdi_regByte ra imm s, execLdi_regByte ra imm (s.setFl v)⟩
    | mod a b =>
      obtain ⟨ra, rfl⟩ := hA a rfl
      obtain ⟨rb, rfl⟩ := hB b rfl
      exact carriesFl_mod v ra rb s
    | add a b | mul a b | and a b | or a b | xor a b | shl a b | shr a b =>
      obtain ⟨ra, rfl⟩ := hA a rfl
      obtain ⟨rb, rfl⟩ := hB b rfl
      exact ⟨_, aluBinary_regByte _ ra rb s, aluBinary_regByte _ ra rb (s.setFl v)⟩

/-- What carries the value `fl` already holds has left it there. -/
theorem exec_fl_of_not_cmp {i : Instr} (hc : i.isCmp = false) {s t : State} (h : exec i s = .next t) : t.fl = s.fl := by
  obtain ⟨u, hu, hcarried⟩ := carriesFl_of_not_cmp hc (v := s.fl) (s := s) rfl
  have hself : exec i s = .next (u.setFl s.fl) := hcarried
  obtain rfl : u.setFl s.fl = t := Host.Outcome.next.inj (hself.symm.trans h)
  rfl

/-- CMP on registers ends in the same state whatever `fl` held (41_alu.md R118). -/
theorem exec_cmp_overwrites_fl (a b : RegIdx) (s : State) (v : Byte) : ∃ t,
    exec (.cmp (regByte a) (regByte b)) s = .next t ∧ exec (.cmp (regByte a) (regByte b)) (s.setFl v) = .next t :=
  ⟨_, execCmp_regByte a b s, execCmp_regByte a b (s.setFl v)⟩

/-- A CMP carries `fl` where it faults, and overwrites it where it completes. -/
theorem exec_cmp_carries_or_overwrites_fl (a b : Byte) (s : State) (v : Byte) : CarriesFl v (.cmp a b) s ∨
    ∃ t, exec (.cmp a b) s = .next t ∧ exec (.cmp a b) (s.setFl v) = .next t := by
  cases hw : (Instr.cmp a b).wellFormed with
  | false => exact .inl (carriesFl_of_illFormed hw v s)
  | true =>
    obtain ⟨ra, rfl⟩ := exists_regA_of_wellFormed hw (a := a) rfl
    obtain ⟨rb, rfl⟩ := exists_regB_of_wellFormed hw (b := b) rfl
    exact .inr (exec_cmp_overwrites_fl ra rb s v)

/-- Of `fl` an instruction reads E alone: another value with the same E stays there, or a completed CMP overwrites it. -/
theorem exec_reads_E_of_fl (i : Instr) {s : State} {v : Byte} (hE : (s.setFl v).isE = s.isE) : ∃ t u,
    exec i s = .next t ∧ exec i (s.setFl v) = .next u ∧ (u = t.setFl v ∨ (i.isCmp = true ∧ u = t)) := by
  cases hc : i.isCmp with
  | false =>
    obtain ⟨t, ht, hu⟩ := carriesFl_of_not_cmp hc hE
    exact ⟨t, _, ht, hu, .inl rfl⟩
  | true =>
    cases i with
    | cmp a b =>
      obtain ⟨t, ht, hu⟩ | ⟨t, ht, hu⟩ := exec_cmp_carries_or_overwrites_fl a b s v
      · exact ⟨t, _, ht, hu, .inl rfl⟩
      · exact ⟨t, t, ht, hu, .inr ⟨rfl, rfl⟩⟩
    | _ => cases hc

/-! ### The branches on E -/

theorem exec_jeq_taken {s : State} (hE : s.isE = true) (a : RegIdx) :
    exec (.jeq (regByte a)) s = .next (s.jump (s.reg a)) :=
  (execJeq_regByte a s).trans (by rw [if_pos hE])

theorem exec_jeq_untaken {s : State} (hE : s.isE = false) (a : RegIdx) :
    exec (.jeq (regByte a)) s = .next (s.advance 2) :=
  (execJeq_regByte a s).trans (by rw [if_neg (by simp [hE])])

theorem exec_jne_taken {s : State} (hE : s.isE = false) (a : RegIdx) :
    exec (.jne (regByte a)) s = .next (s.jump (s.reg a)) :=
  (execJne_regByte a s).trans (by rw [if_neg (by simp [hE])])

theorem exec_jne_untaken {s : State} (hE : s.isE = true) (a : RegIdx) :
    exec (.jne (regByte a)) s = .next (s.advance 2) :=
  (execJne_regByte a s).trans (by rw [if_pos hE])

/-- A jump puts pc at its target (44_control_flow.md R170). -/
theorem pc_of_jump {r : Result} {s t : State} {target : Byte} (hr : r = .next (s.jump target)) (h : r = .next t) :
    t.pc.toNat = target.toNat := by
  obtain rfl : s.jump target = t := Host.Outcome.next.inj (hr.symm.trans h)
  exact zextPc_toNat target

theorem advancesPc_of_advance {r : Result} {s t : State} {len : Nat} (hlen : len ≤ 3)
    (hr : r = .next (s.advance len)) (h : r = .next t) : AdvancesPc len s t := by
  obtain rfl : s.advance len = t := Host.Outcome.next.inj (hr.symm.trans h)
  exact State.advance_pc_toNat hlen

end Sys2Proof.Machine

section
open Sys2Proof Sys2Proof.Machine

/-- Settles O16: a byte up to 7 is the operand byte of its register; an ill-formed instruction faults on one operand. -/
theorem badRegisterIndexFaults : Obligations.BadRegisterIndexFaults := by
  refine ⟨fun slot i s hi => ?_, fun i s hw => ?_⟩
  · obtain ⟨r, rfl⟩ := exists_regByte hi
    exact ⟨r, checkReg_regByte slot r s, (regByte_toNat r).symm⟩
  · obtain ⟨index, slot, hbad, hoperand, hexec⟩ := exec_of_illFormed hw
    exact ⟨index, slot, hbad, hoperand, hexec s⟩

/-- Settles O40: every instruction but CMP carries any `fl` with the same E, so it keeps the one it finds; CMP overwrites
it unless it faults. -/
theorem onlyCmpTouchesFlags : Obligations.OnlyCmpTouchesFlags := by
  refine ⟨fun i s t hc h => exec_fl_of_not_cmp hc h, exec_cmp_overwrites_fl, fun a s t h => ⟨fun hE => ?_, fun hE => ?_⟩,
    fun a s t h => ⟨fun hE => ?_, fun hE => ?_⟩, fun i s v hE => ?_⟩
  · exact pc_of_jump (exec_jeq_taken hE a) h
  · exact advancesPc_of_advance (by decide) (exec_jeq_untaken hE a) h
  · exact pc_of_jump (exec_jne_taken hE a) h
  · exact advancesPc_of_advance (by decide) (exec_jne_untaken hE a) h
  · exact exec_reads_E_of_fl i hE

end

/-! What a fetched byte 0 does when it is HALT and when it is no opcode (40_loop_dispatch.md section 1). -/

namespace Sys2Proof.Machine

/-- HLT's handler, reached from the loop or called directly, halts (40_loop_dispatch.md R82, R83). -/
theorem exec_hlt (s : State) : exec .hlt s = .next s.halt := rfl

/-- The decoder rejects a byte 0 outside the opcode map, whatever the operand bytes (30_encoding.md R67). -/
theorem decodeWindow_of_notMem_opcodeList {op0 : Byte} (h : op0 ∉ opcodeList) (op1 op2 : Byte) :
    decodeWindow op0 op1 op2 = .error (.invalidOpcode op0) := by
  unfold decodeWindow
  split
  case h_21 => rfl
  all_goals exact absurd (by decide) h

/-- The opcode test of the loop (40_loop_dispatch.md R84). -/
theorem step_invalidOpcode {s : State} (h : s.Ready) (hb : s.byteAt s.pc.toNat ∉ opcodeList) :
    step s = .next (s.enterFault (.invalidInstruction (s.byteAt s.pc.toNat) s.pc)) := by
  rw [step_ready h, dispatchWindow, decodeWindow_of_notMem_opcodeList hb]
  rfl

end Sys2Proof.Machine

section
open Sys2Proof Sys2Proof.Machine

/-- Settles O12: the loop's HALT test and HLT's handler both answer `s.halt`, which writes `run` alone. -/
theorem haltStopsTheCore : Obligations.HaltStopsTheCore :=
  ⟨fun _ h hb => step_halt h hb, exec_hlt⟩

/-- Settles O13: the byte is not decoded, so its fault is taken, and the exit status is read off the fault's record. -/
theorem invalidOpcodeFaults : Obligations.InvalidOpcodeFaults := by
  intro s h hb
  exact ⟨_, step_invalidOpcode h hb, rfl, exitStatus_faulted (State.enterFault_run s _), exitFault_ne_zero _⟩

end

/-! The register-to-register operations of the ALU: MUL, MOD, AND, OR and XOR (41_alu.md sections 1 and 2). -/

namespace Sys2Proof.Machine

/-! ### The state of a completed operation -/

/-- A result written to x[a] and an advance of pc touch nothing else (41_alu.md R120). -/
theorem onlyRegAndPc_setReg_advance (s : State) (a : RegIdx) (v : Byte) (len : Nat) :
    OnlyRegAndPc a s ((s.setReg a v).advance len) :=
  ⟨fun r hr => State.setReg_reg_other s a r v hr, fun _ => rfl, rfl, rfl, rfl, rfl⟩

theorem advancesPc_setReg_advance (s : State) (a : RegIdx) (v : Byte) {len : Nat} (hlen : len ≤ 3) :
    AdvancesPc len s ((s.setReg a v).advance len) :=
  fun hp => State.advance_pc_toNat (s := s.setReg a v) hlen hp

/-! ### Format RR with a result -/

/-- An instruction whose handler is `aluBinary f` meets the rule of format RR for every `value` that `f` computes. -/
theorem registerPairRule_of_aluBinary {opcode : Byte} {mk : Byte → Byte → Instr} {f : Byte → Byte → Byte}
    {value : Byte → Byte → Byte → Prop}
    (hdecode : ∀ op1 op2 : Byte, decodeWindow opcode op1 op2 = .ok (mk op1 op2))
    (hexec : ∀ (a b : Byte) (s : State), exec (mk a b) s = aluBinary f a b s)
    (hvalue : ∀ x y : Byte, value x y (f x y)) : RegisterPairRule opcode mk value := by
  refine ⟨hdecode, fun a b s => ?completes, fun b a s ha => ?badA, fun a b s ha hb => ?badB⟩
  case completes =>
    refine ⟨_, (hexec _ _ s).trans (aluBinary_regByte f a b s), ?_, advancesPc_setReg_advance s a _ (by decide),
      onlyRegAndPc_setReg_advance s a _ 3⟩
    rw [State.advance_reg, State.setReg_reg_same]
    exact hvalue (s.reg a) (s.reg b)
  case badA => exact (hexec a b s).trans (aluBinary_badA ha)
  case badB =>
    obtain ⟨r, rfl⟩ := exists_regByte ha
    exact (hexec (regByte r) b s).trans (aluBinary_badB hb)

/-! ### MOD -/

/-- The remainder of two bytes is a byte (41_alu.md R104). -/
@[simp] theorem aluMod_toNat (x y : Byte) : (aluMod x y).toNat = x.toNat % y.toNat := by
  have hlt : x.toNat % y.toNat < 256 := (Nat.mod_le _ _).trans_lt x.isLt
  rw [aluMod, u8_toNat, Nat.mod_eq_of_lt hlt]

end Sys2Proof.Machine

section
open Sys2Proof Sys2Proof.Machine

/-- Settles O23: a divisor that is not 0 completes as format RR does, a zero divisor takes its fault in the state before
the instruction, and both index checks come first. -/
theorem modRule : Obligations.ModRule := by
  refine ⟨fun _ _ => rfl, fun a b s hdiv => ?divides, fun a b s hzero => ?zero, fun b a s ha => ?badA,
    fun a b s ha hb => ?badB⟩
  case divides =>
    exact ⟨_, execMod_regByte hdiv, by simp, advancesPc_setReg_advance s a _ (by decide),
      onlyRegAndPc_setReg_advance s a _ 3⟩
  case zero =>
    exact ⟨_, execMod_zero hzero, rfl, exitStatus_faulted (State.enterFault_run s _), exitFault_ne_zero _⟩
  case badA => exact exec_badA rfl ha s
  case badB =>
    obtain ⟨r, rfl⟩ := exists_regByte ha
    exact exec_badB rfl rfl hb s

/-- Settles O22: `aluMul` keeps the low byte of the product. -/
theorem mulRule : Obligations.MulRule :=
  registerPairRule_of_aluBinary (f := aluMul) (fun _ _ => rfl) (fun _ _ _ => rfl) fun _ _ => u8_toNat _

/-- Settles O24: `aluAnd` is the bitwise AND of words, read bit by bit. -/
theorem andRule : Obligations.AndRule :=
  registerPairRule_of_aluBinary (f := aluAnd) (fun _ _ => rfl) (fun _ _ _ => rfl) fun _ _ _ => BitVec.getLsbD_and

/-- Settles O25: `aluOr` is the bitwise OR of words, read bit by bit. -/
theorem orRule : Obligations.OrRule :=
  registerPairRule_of_aluBinary (f := aluOr) (fun _ _ => rfl) (fun _ _ _ => rfl) fun _ _ _ => BitVec.getLsbD_or

/-- Settles O26: `aluXor` is the bitwise exclusive OR of words, read bit by bit. -/
theorem xorRule : Obligations.XorRule :=
  registerPairRule_of_aluBinary (f := aluXor) (fun _ _ => rfl) (fun _ _ _ => rfl) fun _ _ _ => BitVec.getLsbD_xor

end

/-! Data movement: LDI (42_data_io.md R140). -/

section
open Sys2Proof Sys2Proof.Machine

/-- Settles O31: LDI writes its immediate to x[a] unchecked and advances pc, or faults on the index in operand a. -/
theorem ldiRule : Obligations.LdiRule := by
  refine ⟨fun _ _ => rfl, fun a imm s => ?completes, fun imm a s ha => ?badA⟩
  case completes =>
    have hstored : ((s.setReg a imm).advance 3).reg a = imm := by
      rw [State.advance_reg, State.setReg_reg_same]
    exact ⟨_, execLdi_regByte a imm s, hstored, advancesPc_setReg_advance s a imm (by decide),
      onlyRegAndPc_setReg_advance s a imm 3⟩
  case badA => exact exec_badA rfl ha s

end

/-! The decoder and the encoder agree: a window decodes to an instruction exactly when it begins with the instruction's encoding,
the bytes a format ignores being any (30_encoding.md sections 2 to 4). -/

namespace Sys2Proof

theorem encode_length (i : Instr) : (encode i).length = i.length := by cases i <;> rfl

theorem Instr.length_le (i : Instr) : i.length ≤ 3 := by
  unfold Instr.length
  cases i.format <;> decide

theorem Instr.opcode_mem_opcodeList (i : Instr) : i.opcode ∈ opcodeList := by
  cases i <;> simp [Instr.opcode, opcodeList]

theorem encode_prefix_of_decodeWindow {op0 op1 op2 : Byte} {i : Instr} (h : decodeWindow op0 op1 op2 = .ok i) :
    encode i <+: [op0, op1, op2] := by
  unfold decodeWindow at h
  split at h
  case h_21 => cases h
  all_goals
    cases h
    simp [encode, Instr.opcode, Instr.operandBytes]

theorem decodeWindow_of_encode_prefix {op0 op1 op2 : Byte} {i : Instr} (h : encode i <+: [op0, op1, op2]) :
    decodeWindow op0 op1 op2 = .ok i := by
  obtain ⟨rfl, hops⟩ : i.opcode = op0 ∧ i.operandBytes <+: [op1, op2] := List.cons_prefix_cons.mp h
  cases i with
  | hlt | ret => rfl
  | push | pop | prn | call | jmp | jeq | jne | not =>
    obtain ⟨rfl, -⟩ := List.cons_prefix_cons.mp hops
    rfl
  | ldi | add | mul | mod | cmp | and | or | xor | shl | shr =>
    obtain ⟨rfl, htail⟩ := List.cons_prefix_cons.mp hops
    obtain ⟨rfl, -⟩ := List.cons_prefix_cons.mp htail
    rfl

theorem opcode_of_decodeWindow {op0 op1 op2 : Byte} {i : Instr} (h : decodeWindow op0 op1 op2 = .ok i) :
    i.opcode = op0 :=
  (List.cons_prefix_cons.mp (encode_prefix_of_decodeWindow h)).1

/-- A byte of the opcode list is decoded, whatever the operand bytes (30_encoding.md R66). -/
theorem exists_decodeWindow_of_mem_opcodeList {op0 : Byte} (h : op0 ∈ opcodeList) (op1 op2 : Byte) :
    ∃ i, decodeWindow op0 op1 op2 = .ok i := by
  unfold decodeWindow
  split
  case h_21 => simp_all [opcodeList]
  all_goals exact ⟨_, rfl⟩

end Sys2Proof

section
open Sys2Proof Sys2Proof.Machine

/-- Settles O5: the first three bytes begin with the encoding, since no encoding is longer. -/
theorem decodeEncode : Obligations.DecodeEncode := by
  intro i rest hlen
  generalize hbytes : encode i ++ rest = bytes at hlen ⊢
  obtain ⟨op0, op1, op2, more, rfl⟩ : ∃ op0 op1 op2 more, bytes = op0 :: op1 :: op2 :: more := by
    match bytes, hlen with
    | op0 :: op1 :: op2 :: more, _ => exact ⟨op0, op1, op2, more, rfl⟩
  have hwindow : encode i <+: [op0, op1, op2] :=
    List.prefix_of_prefix_length_le ⟨rest, hbytes⟩ ⟨more, rfl⟩ ((encode_length i).trans_le i.length_le)
  exact decodeWindow_of_encode_prefix hwindow

/-- Settles O6: the window begins with the encoding, which is as long as the instruction. -/
theorem encodeDecode : Obligations.EncodeDecode := by
  intro op0 op1 op2 i h
  have hprefix := List.prefix_iff_eq_take.mp (encode_prefix_of_decodeWindow h)
  rwa [encode_length] at hprefix

/-- Settles O7: a decoded instruction has its byte 0 as opcode, a listed byte is decoded, and the ranges are those between the
listed values. -/
theorem opcodeMapExact : Obligations.OpcodeMapExact := by
  refine ⟨fun op0 op1 op2 => ⟨?decoded, fun h => ?listed⟩, fun op0 op1 op2 h => ?rejected, fun op0 => ?ranges⟩
  case decoded =>
    rintro ⟨i, -, rfl⟩
    exact i.opcode_mem_opcodeList
  case listed =>
    obtain ⟨i, hi⟩ := exists_decodeWindow_of_mem_opcodeList h op1 op2
    exact ⟨i, hi, opcode_of_decodeWindow hi⟩
  case rejected => exact decodeWindow_of_notMem_opcodeList h op1 op2
  case ranges =>
    have hbyte := op0.isLt
    simp only [opcodeList, List.mem_cons, List.not_mem_nil, ← BitVec.toNat_inj, BitVec.toNat_ofNat, or_false]
    constructor
    · omega
    · omega

/-- Settles O8: each window begins with the encoding of its instruction. -/
theorem decodeSamples : Obligations.DecodeSamples :=
  ⟨rfl, rfl, rfl, rfl, rfl, rfl, rfl, rfl⟩

end

/-! The order of the checks (60_exceptions.md section 2), and the state each instruction completes in when none of them fails. -/

namespace Sys2Proof.Machine

/-! ### The first check that fails -/

@[simp] theorem badIndex_regByte (slot : OperandSlot) (s : State) (r : RegIdx) :
    badIndex slot s (some (regByte r)) = none :=
  if_neg (by rw [regByte_toNat]; omega)

theorem badIndex_eq_some {slot : OperandSlot} {s : State} {operand : Option Byte} {f : FaultRecord}
    (h : badIndex slot s operand = some f) :
    ∃ index, operand = some index ∧ 7 < index.toNat ∧ f = .registerIndex index slot s.pc := by
  cases operand with
  | none => cases h
  | some index =>
    obtain ⟨hbad, hf⟩ := Option.ite_none_right_eq_some.mp h
    exact ⟨index, rfl, hbad, (Option.some.inj hf).symm⟩

theorem exists_regByte_of_badIndex_eq_none {slot : OperandSlot} {s : State} {index : Byte}
    (h : badIndex slot s (some index) = none) : ∃ r : RegIdx, index = regByte r :=
  exists_regByte (Nat.not_lt.mp fun hbad => by simp [badIndex, hbad] at h)

theorem zeroDivisor_mod (s : State) (a : Byte) (b : RegIdx) :
    zeroDivisor s (.mod a (regByte b)) = if s.reg b = 0 then some (.divisionByZero (regByte b) s.pc) else none := by
  have hread : s.regs[b.val]? = some (s.reg b) := Vector.getElem?_eq_getElem b.isLt
  simp only [zeroDivisor, regByte_toNat, hread, Option.all_some, decide_eq_true_eq]

theorem exists_mod_of_zeroDivisor {s : State} {i : Instr} {f : FaultRecord} (h : zeroDivisor s i = some f) :
    ∃ a b, i = .mod a b := by
  cases i with
  | mod a b => exact ⟨a, b, rfl⟩
  | _ => cases h

/-- Every way a check fails, the earlier ones having passed. -/
theorem firstFailure_eq_some {i : Instr} {s : State} {f : FaultRecord} (h : firstFailure i s = some f) :
    (∃ index, i.regA = some index ∧ 7 < index.toNat ∧ f = .registerIndex index .a s.pc) ∨
    (∃ a index, i.regA = some (regByte a) ∧ i.regB = some index ∧ 7 < index.toNat ∧ f = .registerIndex index .b s.pc) ∨
    ∃ a b, i = .mod (regByte a) (regByte b) ∧ s.reg b = 0 ∧ f = .divisionByZero (regByte b) s.pc := by
  simp only [firstFailure, Option.orElse_eq_or, Option.or_eq_some_iff] at h
  obtain h | ⟨hokA, h | ⟨hokB, h⟩⟩ := h
  · exact .inl (badIndex_eq_some h)
  · obtain ⟨index, hB, hbad, hf⟩ := badIndex_eq_some h
    obtain ⟨a, hA⟩ := exists_regA_of_regB hB
    rw [hA] at hokA
    obtain ⟨r, rfl⟩ := exists_regByte_of_badIndex_eq_none hokA
    exact .inr (.inl ⟨r, index, hA, hB, hbad, hf⟩)
  · obtain ⟨a, b, rfl⟩ := exists_mod_of_zeroDivisor h
    obtain ⟨ra, rfl⟩ := exists_regByte_of_badIndex_eq_none hokA
    obtain ⟨rb, rfl⟩ := exists_regByte_of_badIndex_eq_none hokB
    rw [zeroDivisor_mod] at h
    obtain ⟨hzero, hf⟩ := Option.ite_none_right_eq_some.mp h
    exact .inr (.inr ⟨ra, rb, rfl, hzero, (Option.some.inj hf).symm⟩)

/-- The first check that fails is the fault that is taken. -/
theorem exec_of_firstFailure {i : Instr} {s : State} {f : FaultRecord} (h : firstFailure i s = some f) :
    exec i s = .next (s.enterFault f) := by
  obtain ⟨index, hA, hbad, rfl⟩ | ⟨a, index, hA, hB, hbad, rfl⟩ | ⟨a, b, rfl, hzero, rfl⟩ := firstFailure_eq_some h
  · exact exec_badA hA hbad s
  · exact exec_badB hA hB hbad s
  · exact execMod_zero hzero

/-! ### Completing -/

/-- The state each instruction completes in: one equation per row of the opcode map, on operands that name registers. -/
inductive Completes (s : State) : Instr → State → Prop
  | hlt : Completes s .hlt s.halt
  | ret : Completes s .ret ((s.setSp (s.sp + 1)).jump (s.byteAt s.sp.toNat))
  | push (a : RegIdx) : Completes s (.push (regByte a))
      (((s.setSp (s.sp - 1)).setMem (Memory.write s.mem (s.sp - 1).toNat (s.reg a))).advance 2)
  | pop (a : RegIdx) : Completes s (.pop (regByte a)) (((s.setReg a (s.byteAt s.sp.toNat)).setSp
      (if s.sp = Config.spInit then s.sp else s.sp + 1)).advance 2)
  | prn (a : RegIdx) : Completes s (.prn (regByte a)) ((s.emit (s.reg a)).advance 2)
  | call (a : RegIdx) : Completes s (.call (regByte a)) (((s.setSp (s.sp - 1)).setMem
      (Memory.write s.mem (s.sp - 1).toNat (u8 (s.pc.toNat + 2)))).jump (s.reg a))
  | jmp (a : RegIdx) : Completes s (.jmp (regByte a)) (s.jump (s.reg a))
  | jeqTaken (a : RegIdx) (hE : s.isE = true) : Completes s (.jeq (regByte a)) (s.jump (s.reg a))
  | jeqUntaken (a : RegIdx) (hE : s.isE = false) : Completes s (.jeq (regByte a)) (s.advance 2)
  | jneTaken (a : RegIdx) (hE : s.isE = false) : Completes s (.jne (regByte a)) (s.jump (s.reg a))
  | jneUntaken (a : RegIdx) (hE : s.isE = true) : Completes s (.jne (regByte a)) (s.advance 2)
  | not (a : RegIdx) : Completes s (.not (regByte a)) ((s.setReg a (aluNot (s.reg a))).advance 2)
  | ldi (a : RegIdx) (imm : Byte) : Completes s (.ldi (regByte a) imm) ((s.setReg a imm).advance 3)
  | cmp (a b : RegIdx) : Completes s (.cmp (regByte a) (regByte b))
      ((s.setFl (compareFlags (s.reg a) (s.reg b))).advance 3)
  | mod (a b : RegIdx) (hdiv : s.reg b ≠ 0) : Completes s (.mod (regByte a) (regByte b))
      ((s.setReg a (aluMod (s.reg a) (s.reg b))).advance 3)
  | add (a b : RegIdx) : Completes s (.add (regByte a) (regByte b))
      ((s.setReg a (aluAdd (s.reg a) (s.reg b))).advance 3)
  | mul (a b : RegIdx) : Completes s (.mul (regByte a) (regByte b))
      ((s.setReg a (aluMul (s.reg a) (s.reg b))).advance 3)
  | and (a b : RegIdx) : Completes s (.and (regByte a) (regByte b))
      ((s.setReg a (aluAnd (s.reg a) (s.reg b))).advance 3)
  | or (a b : RegIdx) : Completes s (.or (regByte a) (regByte b))
      ((s.setReg a (aluOr (s.reg a) (s.reg b))).advance 3)
  | xor (a b : RegIdx) : Completes s (.xor (regByte a) (regByte b))
      ((s.setReg a (aluXor (s.reg a) (s.reg b))).advance 3)
  | shl (a b : RegIdx) : Completes s (.shl (regByte a) (regByte b))
      ((s.setReg a (aluShl (s.reg a) (s.reg b))).advance 3)
  | shr (a b : RegIdx) : Completes s (.shr (regByte a) (regByte b))
      ((s.setReg a (aluShr (s.reg a) (s.reg b))).advance 3)

/-- The relation is `exec`'s own: what completes is what the model answers. -/
theorem exec_of_completes {i : Instr} {s t : State} (h : Completes s i t) : exec i s = .next t := by
  cases h with
  | hlt => rfl
  | ret => exact execRet_eq s
  | push a => exact execPush_regByte a s
  | pop a => exact execPop_regByte a s
  | prn a => exact execPrn_regByte a s
  | call a => exact execCall_regByte a s
  | jmp a => exact execJmp_regByte a s
  | jeqTaken a hE => exact exec_jeq_taken hE a
  | jeqUntaken a hE => exact exec_jeq_untaken hE a
  | jneTaken a hE => exact exec_jne_taken hE a
  | jneUntaken a hE => exact exec_jne_untaken hE a
  | not a => exact execNot_regByte a s
  | ldi a imm => exact execLdi_regByte a imm s
  | cmp a b => exact execCmp_regByte a b s
  | mod a b hdiv => exact execMod_regByte hdiv
  | add a b | mul a b | and a b | or a b | xor a b | shl a b | shr a b => exact aluBinary_regByte _ a b s

theorem exists_completes_jeq (s : State) (a : RegIdx) : ∃ t, Completes s (.jeq (regByte a)) t := by
  cases hE : s.isE with
  | false => exact ⟨_, .jeqUntaken a hE⟩
  | true => exact ⟨_, .jeqTaken a hE⟩

theorem exists_completes_jne (s : State) (a : RegIdx) : ∃ t, Completes s (.jne (regByte a)) t := by
  cases hE : s.isE with
  | false => exact ⟨_, .jneTaken a hE⟩
  | true => exact ⟨_, .jneUntaken a hE⟩

/-- An instruction whose checks all pass completes (60_exceptions.md R184). -/
theorem exists_completes {i : Instr} {s : State} (h : firstFailure i s = none) : ∃ t, Completes s i t := by
  simp only [firstFailure, Option.orElse_eq_or, Option.or_eq_none_iff] at h
  obtain ⟨hA, hB, hzero⟩ := h
  cases i with
  | hlt => exact ⟨_, .hlt⟩
  | ret => exact ⟨_, .ret⟩
  | push a | pop a | prn a | call a | jmp a | not a | ldi a imm =>
    obtain ⟨ra, rfl⟩ := exists_regByte_of_badIndex_eq_none hA
    exact ⟨_, by constructor⟩
  | jeq a =>
    obtain ⟨ra, rfl⟩ := exists_regByte_of_badIndex_eq_none hA
    exact exists_completes_jeq s ra
  | jne a =>
    obtain ⟨ra, rfl⟩ := exists_regByte_of_badIndex_eq_none hA
    exact exists_completes_jne s ra
  | mod a b =>
    obtain ⟨ra, rfl⟩ := exists_regByte_of_badIndex_eq_none hA
    obtain ⟨rb, rfl⟩ := exists_regByte_of_badIndex_eq_none hB
    rw [zeroDivisor_mod] at hzero
    exact ⟨_, .mod ra rb fun h => by simp [h] at hzero⟩
  | cmp a b | add a b | mul a b | and a b | or a b | xor a b | shl a b | shr a b =>
    obtain ⟨ra, rfl⟩ := exists_regByte_of_badIndex_eq_none hA
    obtain ⟨rb, rfl⟩ := exists_regByte_of_badIndex_eq_none hB
    exact ⟨_, by constructor⟩

/-- Everything an instruction can do: its checks pass and it completes, or the first that fails is taken as its fault. -/
theorem exec_cases {i : Instr} {s t : State} (h : exec i s = .next t) :
    Completes s i t ∨ ∃ f, firstFailure i s = some f ∧ t = s.enterFault f := by
  cases hfail : firstFailure i s with
  | none =>
    obtain ⟨u, hu⟩ := exists_completes hfail
    obtain rfl : u = t := Host.Outcome.next.inj ((exec_of_completes hu).symm.trans h)
    exact .inl hu
  | some f => exact .inr ⟨f, rfl, Host.Outcome.next.inj (h.symm.trans (exec_of_firstFailure hfail))⟩

/-- An instruction whose checks pass takes no fault. -/
theorem completes_of_exec {i : Instr} {s t : State} (hfail : firstFailure i s = none) (h : exec i s = .next t) :
    Completes s i t := by
  obtain hdone | ⟨f, hf, -⟩ := exec_cases h
  · exact hdone
  · simp [hfail] at hf

/-! ### What a completed instruction writes -/

namespace Completes

variable {i : Instr} {s t : State}

theorem run_eq (h : Completes s i t) : t.run = if i = .hlt then .halted else s.run := by
  cases h <;> rfl

/-- A completed instruction writes the byte at the lowered sp, or no memory (20_memory.md R41). -/
theorem mem_cases (h : Completes s i t) :
    t.mem = s.mem ∨ (i.writesMem = true ∧ ∃ v, t.mem = Memory.write s.mem (s.sp - 1).toNat v) := by
  cases h with
  | push | call => exact .inr ⟨rfl, _, rfl⟩
  | _ => exact .inl rfl

/-- Only the stack and call instructions write sp (10_state.md R25). -/
theorem sp_cases (h : Completes s i t) : t.sp = s.sp ∨ i.writesSp = true := by
  cases h with
  | ret | push | pop | call => exact .inr rfl
  | _ => exact .inl rfl

/-- Only PRN emits, the value of its register (10_state.md R30). -/
theorem out_cases (h : Completes s i t) :
    t.out = s.out ∨ ∃ r : RegIdx, i = .prn (regByte r) ∧ t.out = s.out ++ [s.reg r] := by
  cases h with
  | prn a => exact .inr ⟨a, rfl, rfl⟩
  | _ => exact .inl rfl

/-- fl keeps its value, or holds the outcome of a comparison (10_state.md R27). -/
theorem fl_cases (h : Completes s i t) : t.fl = s.fl ∨ ∃ x y, t.fl = compareFlags x y := by
  cases h with
  | cmp a b => exact .inr ⟨s.reg a, s.reg b, rfl⟩
  | _ => exact .inl rfl

/-- A completed instruction writes the register its operand a names, or none (10_state.md R21). -/
theorem regs_cases (h : Completes s i t) :
    KeepsRegs s t ∨ ∃ a : RegIdx, i.writesRegA = true ∧ i.regA = some (regByte a) ∧ KeepsRegsBut a s t := by
  cases h with
  | pop a | not a | ldi a | mod a | add a | mul a | and a | or a | xor a | shl a | shr a =>
    exact .inr ⟨a, rfl, rfl, fun r hr => State.setReg_reg_other s a r _ hr⟩
  | _ => exact .inl fun _ => rfl

/-- pc stays under HLT, takes an 8-bit target under a redirect, and otherwise advances by the length (10_state.md R24). -/
theorem pc_cases (h : Completes s i t) :
    (i = .hlt ∧ t.pc = s.pc) ∨ (redirects s i = true ∧ i ≠ .hlt ∧ ∃ target, t.pc = zextPc target) ∨
    (redirects s i = false ∧ i ≠ .hlt ∧ t.pc = (s.advance i.length).pc) := by
  cases h with
  | hlt => exact .inl ⟨rfl, rfl⟩
  | ret | call | jmp => exact .inr (.inl ⟨rfl, nofun, _, rfl⟩)
  | jeqTaken a hE => exact .inr (.inl ⟨hE, nofun, _, rfl⟩)
  | jneTaken a hE => exact .inr (.inl ⟨by simp [redirects, hE], nofun, _, rfl⟩)
  | jeqUntaken a hE => exact .inr (.inr ⟨hE, nofun, rfl⟩)
  | jneUntaken a hE => exact .inr (.inr ⟨by simp [redirects, hE], nofun, rfl⟩)
  | _ => exact .inr (.inr ⟨rfl, nofun, rfl⟩)

end Completes

end Sys2Proof.Machine

section
open Sys2Proof Sys2Proof.Machine

/-- Settles O17: the first check that fails is taken, and where none fails the instruction completes. -/
theorem checksRunInOrder : Obligations.ChecksRunInOrder := by
  refine fun i s => ⟨fun f hf => exec_of_firstFailure hf, fun hok => ?_⟩
  obtain ⟨t, ht⟩ := exists_completes hok
  exact ⟨t, exec_of_completes ht, ht.run_eq⟩

/-- Settles O42: a fault writes neither memory nor sp, a completed instruction what its class says. -/
theorem memoryAndSpWriters : Obligations.MemoryAndSpWriters := by
  intro i s t h
  obtain hdone | ⟨f, -, rfl⟩ := exec_cases h
  · refine ⟨fun addr hne => ?memory, fun hne => hdone.sp_cases.resolve_left hne⟩
    obtain hkept | ⟨hwrites, v, hmem⟩ := hdone.mem_cases
    · exact absurd (congrArg (Memory.read · addr) hkept) hne
    · refine ⟨hwrites, by_contra fun hother => hne ?_⟩
      rw [State.byteAt_eq, State.byteAt_eq, hmem, Memory.read_write_other _ _ _ _ hother]
  · exact ⟨fun _ hne => absurd rfl hne, fun hne => absurd rfl hne⟩

/-- Settles O43: a fault emits nothing, and of the completed instructions PRN alone does. -/
theorem onlyPrnEmits : Obligations.OnlyPrnEmits := by
  intro i s t h hne
  obtain hdone | ⟨f, -, rfl⟩ := exec_cases h
  · exact hdone.out_cases.resolve_left hne
  · exact absurd rfl hne

/-- Settles O44: each way a completed instruction leaves pc, read over naturals. -/
theorem howEachInstructionLeavesPc : Obligations.HowEachInstructionLeavesPc := by
  intro i s t hpc hok h
  obtain ⟨rfl, hkept⟩ | ⟨hredirects, hne, target, htarget⟩ | ⟨hredirects, hne, hadvance⟩ :=
    (completes_of_exec hok h).pc_cases
  · exact ⟨fun _ => hkept, nofun, fun hne => absurd rfl hne⟩
  · refine ⟨fun hi => absurd hi hne, fun _ => ?_, fun _ hno => by simp [hredirects] at hno⟩
    rw [htarget, zextPc_toNat]
    exact Nat.lt_succ_iff.mp target.isLt
  · refine ⟨fun hi => absurd hi hne, fun hyes => by simp [hredirects] at hyes, fun _ _ => ?_⟩
    rw [hadvance]
    exact State.advance_pc_toNat i.length_le hpc

end

/-! One step as a case split, the truth of fault records, and the invariant every step keeps (40_loop_dispatch.md section 1;
60_exceptions.md sections 1 and 2). -/

namespace Sys2Proof

/-! ### Operand bytes in the window -/

theorem operandBytes_of_regA {i : Instr} {a : Byte} (h : i.regA = some a) : ∃ rest, i.operandBytes = a :: rest := by
  cases i with
  | hlt | ret => cases h
  | _ =>
    cases h
    exact ⟨_, rfl⟩

theorem operandBytes_of_regB {i : Instr} {b : Byte} (h : i.regB = some b) : ∃ a, i.operandBytes = [a, b] := by
  cases i with
  | add | mul | mod | cmp | and | or | xor | shl | shr =>
    cases h
    exact ⟨_, rfl⟩
  | _ => cases h

/-- The register operand a is byte 1 of the window (30_encoding.md R63). -/
theorem op1_of_regA {op0 op1 op2 a : Byte} {i : Instr} (h : decodeWindow op0 op1 op2 = .ok i) (ha : i.regA = some a) :
    op1 = a := by
  obtain ⟨rest, hops⟩ := operandBytes_of_regA ha
  have hprefix := (List.cons_prefix_cons.mp (encode_prefix_of_decodeWindow h)).2
  rw [hops] at hprefix
  exact (List.cons_prefix_cons.mp hprefix).1.symm

/-- The register operand b is byte 2 of the window (30_encoding.md R63). -/
theorem op2_of_regB {op0 op1 op2 b : Byte} {i : Instr} (h : decodeWindow op0 op1 op2 = .ok i) (hb : i.regB = some b) :
    op2 = b := by
  obtain ⟨a, hops⟩ := operandBytes_of_regB hb
  have hprefix := (List.cons_prefix_cons.mp (encode_prefix_of_decodeWindow h)).2
  rw [hops] at hprefix
  exact (List.cons_prefix_cons.mp (List.cons_prefix_cons.mp hprefix).2).1.symm

namespace Machine

/-! ### The instruction a step runs -/

/-- The core is ready and its window decodes to the instruction. -/
def State.Fetches (s : State) (i : Instr) : Prop :=
  s.Ready ∧ decodeWindow (s.byteAt s.pc.toNat) (s.byteAt (s.pc.toNat + 1)) (s.byteAt (s.pc.toNat + 2)) = .ok i

theorem step_of_fetches {s : State} {i : Instr} (h : s.Fetches i) : step s = exec i s := by
  obtain ⟨hready, hi⟩ := h
  rw [step_ready hready, dispatchWindow, hi]

theorem exists_fetches {s : State} (h : s.Ready) (hb : s.byteAt s.pc.toNat ∈ opcodeList) : ∃ i, s.Fetches i := by
  obtain ⟨i, hi⟩ := exists_decodeWindow_of_mem_opcodeList hb _ _
  exact ⟨i, h, hi⟩

/-- The bytes the fetched instruction occupies are those of its encoding (30_encoding.md R60). -/
theorem encode_getElem?_of_fetches {s : State} {i : Instr} (h : s.Fetches i) {k : Nat} (hk : k < i.length) :
    (encode i)[k]? = some (s.byteAt (s.pc.toNat + k)) := by
  have htake := List.prefix_iff_eq_take.mp (encode_prefix_of_decodeWindow h.2)
  rw [encode_length] at htake
  rw [htake, List.getElem?_take_of_lt hk]
  have hk3 : k < 3 := hk.trans_le i.length_le
  interval_cases k <;> rfl

/-! ### Faults tell the truth -/

/-- A check that fails names a cause that stands in the fetched bytes, the registers and pc. -/
theorem faultCause_of_firstFailure {s : State} {i : Instr} {f : FaultRecord} (h : s.Fetches i)
    (hf : firstFailure i s = some f) : FaultCause s f := by
  obtain ⟨⟨-, hpc⟩, hi⟩ := h
  obtain ⟨index, hA, hbad, rfl⟩ | ⟨a, index, hA, hB, hbad, rfl⟩ | ⟨a, b, rfl, hzero, rfl⟩ := firstFailure_eq_some hf
  · exact ⟨rfl, hpc, hbad, (op1_of_regA hi hA).symm, i, hi, hA⟩
  · exact ⟨rfl, hpc, hbad, (op2_of_regB hi hB).symm, i, hi, hB, a, hA⟩
  · exact ⟨rfl, hpc, (opcode_of_decodeWindow hi).symm, op2_of_regB hi rfl, ⟨a, op1_of_regA hi rfl⟩, b, rfl, hzero⟩

/-- A fault's cause does not depend on `run`. -/
theorem faultCause_enterFault {s : State} {f g : FaultRecord} : FaultCause (s.enterFault g) f ↔ FaultCause s f := by
  cases f <;> rfl

theorem FaultCause.pc_eq {s : State} {f : FaultRecord} (h : FaultCause s f) : f.pc = s.pc := by
  cases f with
  | unsupportedAluOperation => exact h.elim
  | _ => exact h.1

theorem FaultCause.code_ne {s : State} {f : FaultRecord} (h : FaultCause s f) :
    f.code ≠ .unsupportedAluOperation := by
  cases f with
  | unsupportedAluOperation => exact h.elim
  | _ => nofun

/-- Everything a step can do: the fetched instruction completes, or a fault with a true cause is taken. -/
theorem step_cases {s t : State} (h : step s = .next t) :
    (∃ i, s.Fetches i ∧ Completes s i t) ∨ ∃ f, FaultCause s f ∧ t = s.enterFault f := by
  have hrun := running_of_step h
  by_cases hpc : s.pc.toNat ≤ 253
  · by_cases hb : s.byteAt s.pc.toNat ∈ opcodeList
    · obtain ⟨i, hi⟩ := exists_fetches ⟨hrun, hpc⟩ hb
      obtain hdone | ⟨f, hf, rfl⟩ := exec_cases ((step_of_fetches hi).symm.trans h)
      · exact .inl ⟨i, hi, hdone⟩
      · exact .inr ⟨f, faultCause_of_firstFailure hi hf, rfl⟩
    · have ht := Host.Outcome.next.inj (h.symm.trans (step_invalidOpcode ⟨hrun, hpc⟩ hb))
      refine .inr ⟨_, ?_, ht⟩
      exact ⟨rfl, hpc, rfl, hb⟩
  · have hpc : 253 < s.pc.toNat := Nat.not_le.mp hpc
    have ht := Host.Outcome.next.inj (h.symm.trans (step_fetch_fault hrun hpc))
    refine .inr ⟨_, ?_, ht⟩
    exact ⟨rfl, hpc, rfl⟩

/-- A fetched instruction that completes does not fault. -/
theorem Completes.run_ne_faulted {s t : State} {i : Instr} (h : Completes s i t) (hrun : s.run = .running)
    (f : FaultRecord) : t.run ≠ .faulted f := by
  rw [h.run_eq, hrun]
  split <;> nofun

/-- A step that ends Faulted took that fault, and its cause is true. -/
theorem step_faulted {s t : State} {f : FaultRecord} (h : step s = .next t) (hf : t.run = .faulted f) :
    FaultCause s f ∧ t = s.enterFault f := by
  obtain ⟨i, -, hdone⟩ | ⟨g, hcause, rfl⟩ := step_cases h
  · exact absurd hf (hdone.run_ne_faulted (running_of_step h) f)
  · obtain rfl : g = f := RunState.faulted.inj hf
    exact ⟨hcause, rfl⟩

/-! ### The invariant -/

theorem compareFlags_cases (x y : Byte) :
    compareFlags x y = flagE ∨ compareFlags x y = flagG ∨ compareFlags x y = flagL := by
  unfold compareFlags
  split
  · exact .inr (.inl rfl)
  · split
    · exact .inr (.inr rfl)
    · exact .inl rfl

/-- PUSH and CALL write inside the array, so memory stays canonical. -/
theorem Completes.mem_wf {s t : State} {i : Instr} (h : Completes s i t) (hmem : Memory.wf s.mem) :
    Memory.wf t.mem := by
  obtain hkept | ⟨-, v, hwritten⟩ := h.mem_cases
  · rwa [hkept]
  · rw [hwritten]
    exact Memory.write_wf hmem (byte_lt_memSize _) v

/-- From a fetchable pc the furthest an instruction comes is 253 + 3 (10_state.md R23). -/
theorem Completes.pc_le {s t : State} {i : Instr} (h : Completes s i t) (hpc : s.pc.toNat ≤ 253) :
    t.pc.toNat ≤ 256 := by
  obtain ⟨-, hkept⟩ | ⟨-, -, target, htarget⟩ | ⟨-, -, hadvance⟩ := h.pc_cases
  · rw [hkept]
    omega
  · rw [htarget, zextPc_toNat]
    exact target.isLt.le
  · have hlen := i.length_le
    rw [hadvance, State.advance_pc_toNat hlen hpc]
    omega

/-- A core that halts stands on the HLT it fetched. -/
theorem Completes.halted {s t : State} {i : Instr} (hi : s.Fetches i) (h : Completes s i t) (ht : t.run = .halted) :
    t = s.halt ∧ s.pc.toNat ≤ 253 ∧ s.byteAt s.pc.toNat = Config.haltOpcode := by
  obtain ⟨⟨hrun, hpc⟩, hi⟩ := hi
  obtain rfl : i = .hlt := by_contra fun hne => by simp [h.run_eq, hne, hrun] at ht
  cases h
  exact ⟨rfl, hpc, decodeWindow_eq_hlt.mp hi⟩

theorem inv_of_completes {s t : State} {i : Instr} (hs : State.Inv s) (hi : s.Fetches i) (h : Completes s i t) :
    State.Inv t where
  memory := h.mem_wf hs.memory
  pcRange := h.pc_le hi.1.2
  flags := by
    obtain hkept | ⟨x, y, hcompared⟩ := h.fl_cases
    · rw [hkept]
      exact hs.flags
    · rw [hcompared]
      exact .inr (compareFlags_cases x y)
  halted ht := by
    obtain ⟨rfl, hpc, hb⟩ := h.halted hi ht
    exact ⟨hpc, hb⟩
  faulted f hf := absurd hf (h.run_ne_faulted hi.1.1 f)

/-- Taking a true fault keeps the invariant: all it speaks of but `run` is untouched. -/
theorem inv_enterFault {s : State} {f : FaultRecord} (hs : State.Inv s) (hf : FaultCause s f) :
    State.Inv (s.enterFault f) where
  memory := hs.memory
  pcRange := hs.pcRange
  flags := hs.flags
  halted := nofun
  faulted g hg := by
    obtain rfl : f = g := RunState.faulted.inj hg
    exact faultCause_enterFault.mpr hf

theorem inv_step {s t : State} (hs : State.Inv s) (h : step s = .next t) : State.Inv t := by
  obtain ⟨i, hi, hdone⟩ | ⟨f, hcause, rfl⟩ := step_cases h
  · exact inv_of_completes hs hi hdone
  · exact inv_enterFault hs hcause

end Machine

end Sys2Proof

section
open Sys2Proof Sys2Proof.Machine

/-- Settles O3: an instruction that completes keeps each clause, and a fault is true of the state it leaves. -/
theorem stepKeepsInvariant : Obligations.StepKeepsInvariant :=
  fun _ _ hs h => inv_step hs h

/-- Settles O9: a ready core's step is the dispatch of its window. -/
theorem stepRunsDecodedInstruction : Obligations.StepRunsDecodedInstruction :=
  fun _ _ hready hi => step_of_fetches ⟨hready, hi⟩

/-- Settles O10: the fetch faults at pc + k, and otherwise byte 0 alone decides between halting, faulting and running. -/
theorem stepFollowsPseudocode : Obligations.StepFollowsPseudocode := by
  refine fun s hrun => ⟨fun k hk hbelow habove => ?fetchFault, fun hpc => ?fetched⟩
  case fetchFault =>
    have hlowest : max 256 s.pc.toNat = s.pc.toNat + k := by
      have := hbelow (k - 1)
      omega
    have hstep := step_fetch_fault hrun (by omega)
    rwa [hlowest] at hstep
  case fetched =>
    have hready : s.Ready := ⟨hrun, by omega⟩
    refine ⟨step_halt hready, step_invalidOpcode hready, fun hb _ => ?_⟩
    obtain ⟨i, hi⟩ := exists_fetches hready hb
    refine ⟨i, opcode_of_decodeWindow hi.2, fun k _ hk => encode_getElem?_of_fetches hi hk, step_of_fetches hi⟩

/-- Settles O11: the fetch raises at the lowest address above 255. -/
theorem fetchAboveMemoryFaults : Obligations.FetchAboveMemoryFaults :=
  fun _ hrun hpc => step_fetch_fault hrun hpc

/-- Settles O18: a step ends Faulted only by taking that fault. -/
theorem faultingStepChangesOnlyRun : Obligations.FaultingStepChangesOnlyRun :=
  fun _ _ _ h hf => (step_faulted h hf).2

/-- Settles O19: the cause of the fault a step takes is true, and a true cause names the pc and is never code 5. -/
theorem faultRecordTellsCause : Obligations.FaultRecordTellsCause := by
  intro s t f h hf
  obtain ⟨hcause, -⟩ := step_faulted h hf
  exact ⟨hcause, hcause.pc_eq, hcause.code_ne⟩

end

/-! Which registers an instruction reads: two states that differ in other registers alone (10_state.md R21). -/

namespace Sys2Proof.Machine

/-- The state with another register file. -/
def State.withRegs (s : State) (file : Vector Byte 8) : State := { s with regs := file }

@[simp] theorem State.withRegs_pc (s : State) (file : Vector Byte 8) : (s.withRegs file).pc = s.pc := rfl

/-- From `s` and `s'` came `t` and `t'`: they differ in registers alone, and each register was written alike or not at all. -/
def WrittenAlike (s s' t t' : State) : Prop :=
  t' = { t with regs := t'.regs } ∧ ∀ r : RegIdx, t'.reg r = t.reg r ∨ (t.reg r = s.reg r ∧ t'.reg r = s'.reg r)

/-- The states of an instruction that writes no register. -/
theorem writtenAlike_of_keeps {s s' t t' : State} (hregs : t.regs = s.regs) (hregs' : t'.regs = s'.regs)
    (hrest : t' = { t with regs := t'.regs }) : WrittenAlike s s' t t' :=
  ⟨hrest, fun r => .inr ⟨congrArg (·[r.val]) hregs, congrArg (·[r.val]) hregs'⟩⟩

/-- The states of an instruction that writes the same value to the same register. -/
theorem writtenAlike_of_set {s s' t t' : State} {a : RegIdx} {v : Byte} (hregs : t.regs = (s.setReg a v).regs)
    (hregs' : t'.regs = (s'.setReg a v).regs) (hrest : t' = { t with regs := t'.regs }) : WrittenAlike s s' t t' := by
  refine ⟨hrest, fun r => ?_⟩
  have hreg : t.reg r = (s.setReg a v).reg r := congrArg (·[r.val]) hregs
  have hreg' : t'.reg r = (s'.setReg a v).reg r := congrArg (·[r.val]) hregs'
  rw [hreg, hreg', State.setReg_reg, State.setReg_reg]
  by_cases hr : r = a
  · exact .inl (by rw [if_pos hr, if_pos hr])
  · exact .inr ⟨if_neg hr, if_neg hr⟩

section
variable {i : Instr} {s : State} {file : Vector Byte 8}
  (hreads : ∀ r : RegIdx, regByte r ∈ i.readRegs → (s.withRegs file).reg r = s.reg r)
include hreads

/-- MOD's divisor is among the registers it reads. -/
theorem zeroDivisor_withRegs : zeroDivisor (s.withRegs file) i = zeroDivisor s i := by
  cases i with
  | mod a b =>
    obtain ⟨r, rfl⟩ | hbad := regByte_cases b
    · rw [zeroDivisor_mod, zeroDivisor_mod, hreads r (by simp [Instr.readRegs]), State.withRegs_pc]
    · have hnone : ∀ u : State, u.regs[b.toNat]? = none := fun u => Vector.getElem?_eq_none hbad
      simp only [zeroDivisor, hnone, State.withRegs_pc]
  | _ => rfl

theorem firstFailure_withRegs : firstFailure i (s.withRegs file) = firstFailure i s := by
  have hindex : ∀ (slot : OperandSlot) (operand : Option Byte),
      badIndex slot (s.withRegs file) operand = badIndex slot s operand := fun slot operand => by
    cases operand <;> rfl
  simp only [firstFailure, hindex, zeroDivisor_withRegs hreads]

/-- A completed instruction depends on no register but those it reads. -/
theorem Completes.withRegs {t : State} (h : Completes s i t) :
    ∃ t', Completes (s.withRegs file) i t' ∧ WrittenAlike s (s.withRegs file) t t' := by
  cases h with
  | hlt => exact ⟨_, .hlt, writtenAlike_of_keeps rfl rfl rfl⟩
  | ret => exact ⟨_, .ret, writtenAlike_of_keeps rfl rfl rfl⟩
  | jeqUntaken a hE => exact ⟨_, .jeqUntaken a hE, writtenAlike_of_keeps rfl rfl rfl⟩
  | jneUntaken a hE => exact ⟨_, .jneUntaken a hE, writtenAlike_of_keeps rfl rfl rfl⟩
  | push a | prn a | call a | jmp a =>
    refine ⟨_, by constructor, ?_⟩
    rw [hreads a (by simp [Instr.readRegs])]
    exact writtenAlike_of_keeps rfl rfl rfl
  | jeqTaken a hE =>
    refine ⟨_, .jeqTaken a hE, ?_⟩
    rw [hreads a (by simp [Instr.readRegs])]
    exact writtenAlike_of_keeps rfl rfl rfl
  | jneTaken a hE =>
    refine ⟨_, .jneTaken a hE, ?_⟩
    rw [hreads a (by simp [Instr.readRegs])]
    exact writtenAlike_of_keeps rfl rfl rfl
  | cmp a b =>
    refine ⟨_, .cmp a b, ?_⟩
    rw [hreads a (by simp [Instr.readRegs]), hreads b (by simp [Instr.readRegs])]
    exact writtenAlike_of_keeps rfl rfl rfl
  | pop a => exact ⟨_, .pop a, writtenAlike_of_set rfl rfl rfl⟩
  | ldi a imm => exact ⟨_, .ldi a imm, writtenAlike_of_set rfl rfl rfl⟩
  | not a =>
    refine ⟨_, .not a, ?_⟩
    rw [hreads a (by simp [Instr.readRegs])]
    exact writtenAlike_of_set rfl rfl rfl
  | mod a b hdiv =>
    have hb : (s.withRegs file).reg b = s.reg b := hreads b (by simp [Instr.readRegs])
    refine ⟨_, .mod a b (by rwa [hb]), ?_⟩
    rw [hreads a (by simp [Instr.readRegs]), hb]
    exact writtenAlike_of_set rfl rfl rfl
  | add a b | mul a b | and a b | or a b | xor a b | shl a b | shr a b =>
    refine ⟨_, by constructor, ?_⟩
    rw [hreads a (by simp [Instr.readRegs]), hreads b (by simp [Instr.readRegs])]
    exact writtenAlike_of_set rfl rfl rfl

theorem exec_withRegs : ∃ t t', exec i s = .next t ∧ exec i (s.withRegs file) = .next t' ∧
    WrittenAlike s (s.withRegs file) t t' := by
  cases hfail : firstFailure i s with
  | some f =>
    have hfail' : firstFailure i (s.withRegs file) = some f := (firstFailure_withRegs hreads).trans hfail
    exact ⟨_, _, exec_of_firstFailure hfail, exec_of_firstFailure hfail', writtenAlike_of_keeps rfl rfl rfl⟩
  | none =>
    obtain ⟨t, ht⟩ := exists_completes hfail
    obtain ⟨t', ht', halike⟩ := ht.withRegs hreads
    exact ⟨t, t', exec_of_completes ht, exec_of_completes ht', halike⟩

end

end Sys2Proof.Machine

section
open Sys2Proof Sys2Proof.Machine

/-- Settles O41: a completed instruction writes the register operand a names, and what it does depends on the registers it
reads alone, as do its checks. -/
theorem registerReadersAndWriters : Obligations.RegisterReadersAndWriters := by
  refine ⟨fun i s t r h hne => ?writers, fun i s s' hs' hreads => ?readers⟩
  case writers =>
    obtain hdone | ⟨f, -, rfl⟩ := exec_cases h
    · obtain hkept | ⟨a, hwrites, hA, hkept⟩ := hdone.regs_cases
      · exact absurd (hkept r) hne
      · obtain rfl : r = a := by_contra fun hr => hne (hkept r hr)
        exact ⟨hwrites, hA⟩
    · exact absurd rfl hne
  case readers =>
    rw [hs'] at hreads ⊢
    exact exec_withRegs hreads

end

/-! The ALU rules beside format RR's plain ones: ADD, NOT, the shifts and CMP (41_alu.md). -/

namespace Sys2Proof.Machine

/-- An instruction with a register operand a checks it first. -/
theorem faultsOnBadA_of_regA {mk : Byte → Instr} (h : ∀ a, (mk a).regA = some a) : FaultsOnBadA mk :=
  fun a s ha => exec_badA (h a) ha s

/-- A pc that is the default advance moves past the instruction over naturals. -/
theorem advancesPc_of_pc_eq {s t : State} {len : Nat} (hlen : len ≤ 3) (h : t.pc = (s.advance len).pc) :
    AdvancesPc len s t := by
  intro hpc
  rw [h]
  exact State.advance_pc_toNat hlen hpc

/-! ### The operations as operations on words -/

/-- `0xFF - x` complements every bit (41_alu.md R114). -/
theorem aluNot_eq_not (x : Byte) : aluNot x = ~~~x := by
  have hx := x.isLt
  apply BitVec.eq_of_toNat_eq
  rw [aluNot, u8_toNat, BitVec.toNat_not]
  omega

theorem aluNot_toNat (x : Byte) : (aluNot x).toNat = 0xFF - x.toNat := by
  rw [aluNot_eq_not, BitVec.toNat_not]

/-- Multiplying by a power of two modulo 256 shifts left (41_alu.md R116). -/
theorem aluShl_eq_shiftLeft (x n : Byte) : aluShl x n = x <<< n.toNat := by
  apply BitVec.eq_of_toNat_eq
  rw [aluShl, u8_toNat, BitVec.toNat_shiftLeft, Nat.shiftLeft_eq]

/-- Dividing by a power of two shifts right, without a sign (41_alu.md R117). -/
theorem aluShr_eq_ushiftRight (x n : Byte) : aluShr x n = x >>> n.toNat := by
  have hlt : x.toNat / 2 ^ n.toNat < 256 := (Nat.div_le_self _ _).trans_lt x.isLt
  apply BitVec.eq_of_toNat_eq
  rw [aluShr, u8_toNat, Nat.mod_eq_of_lt hlt, BitVec.toNat_ushiftRight, Nat.shiftRight_eq_div_pow]

theorem aluShl_getLsbD (x n : Byte) {k : Nat} (hk : k < 8) :
    (aluShl x n).getLsbD k = (decide (n.toNat ≤ k) && x.getLsbD (k - n.toNat)) := by
  rw [aluShl_eq_shiftLeft, BitVec.getLsbD_shiftLeft]
  simp [hk, ← decide_not]

theorem aluShl_eq_zero (x : Byte) {n : Byte} (hn : 8 ≤ n.toNat) : aluShl x n = 0 := by
  rw [aluShl_eq_shiftLeft]
  exact BitVec.shiftLeft_eq_zero hn

theorem aluShr_getLsbD (x n : Byte) (k : Nat) : (aluShr x n).getLsbD k = x.getLsbD (k + n.toNat) := by
  rw [aluShr_eq_ushiftRight, BitVec.getLsbD_ushiftRight, Nat.add_comm]

theorem aluShr_eq_zero (x : Byte) {n : Byte} (hn : 8 ≤ n.toNat) : aluShr x n = 0 := by
  rw [aluShr_eq_ushiftRight]
  exact BitVec.ushiftRight_eq_zero hn

/-! ### The flags of a comparison -/

theorem compareFlags_of_gt {x y : Byte} (h : y.toNat < x.toNat) : compareFlags x y = flagG := if_pos h

theorem compareFlags_of_lt {x y : Byte} (h : x.toNat < y.toNat) : compareFlags x y = flagL :=
  (if_neg h.not_gt).trans (if_pos h)

theorem compareFlags_self (x : Byte) : compareFlags x x = flagE :=
  (if_neg (lt_irrefl _)).trans (if_neg (lt_irrefl _))

/-- Of E, G and L, exactly the one of the unsigned comparison is set, and bits 7:3 are zero (41_alu.md R118). -/
theorem compareFlags_bits (x y : Byte) :
    (compareFlags x y).getLsbD 0 = decide (x = y) ∧ (compareFlags x y).getLsbD 1 = decide (y.toNat < x.toNat) ∧
    (compareFlags x y).getLsbD 2 = decide (x.toNat < y.toNat) ∧ (compareFlags x y).toNat < 8 := by
  obtain h | h | h := Nat.lt_trichotomy x.toNat y.toNat
  · have hne : x ≠ y := fun hxy => h.ne (congrArg BitVec.toNat hxy)
    simp [compareFlags_of_lt h, flagL, h, hne, h.le]
  · obtain rfl := BitVec.eq_of_toNat_eq h
    simp [compareFlags_self, flagE]
  · have hne : x ≠ y := fun hxy => h.ne' (congrArg BitVec.toNat hxy)
    simp [compareFlags_of_gt h, flagG, h, hne, h.le]

end Sys2Proof.Machine

section
open Sys2Proof Sys2Proof.Machine

/-- Settles O21: `aluAdd` is the sum modulo 256. -/
theorem addRule : Obligations.AddRule :=
  registerPairRule_of_aluBinary (f := aluAdd) (fun _ _ => rfl) (fun _ _ _ => rfl) fun _ _ => u8_toNat _

/-- Settles O27: `aluNot` is the complement of the word, and format R ignores byte b. -/
theorem notRule : Obligations.NotRule := by
  refine ⟨fun _ _ => rfl, fun a s => ?completes, faultsOnBadA_of_regA fun _ => rfl⟩
  case completes =>
    refine ⟨_, execNot_regByte a s, fun k hk => ?bits, ?value, advancesPc_setReg_advance s a _ (by decide),
      onlyRegAndPc_setReg_advance s a _ 2⟩
    case bits => simp [aluNot_eq_not, hk]
    case value => rw [State.advance_reg, State.setReg_reg_same, aluNot_toNat]

/-- Settles O28: `aluShl` is the left shift of the word by the whole count. -/
theorem shlRule : Obligations.ShlRule :=
  registerPairRule_of_aluBinary (f := aluShl) (fun _ _ => rfl) (fun _ _ _ => rfl) fun x n =>
    ⟨fun _ hk => aluShl_getLsbD x n hk, aluShl_eq_zero x⟩

/-- Settles O29: `aluShr` is the unsigned right shift of the word by the whole count. -/
theorem shrRule : Obligations.ShrRule :=
  registerPairRule_of_aluBinary (f := aluShr) (fun _ _ => rfl) (fun _ _ _ => rfl) fun x n =>
    ⟨aluShr_getLsbD x n, aluShr_eq_zero x⟩

/-- Settles O30: CMP leaves `compareFlags` in fl, whose bits are the three comparisons. -/
theorem cmpRule : Obligations.CmpRule := by
  refine ⟨fun _ _ => rfl, fun a b s => ?completes, fun _ => faultsOnBadA_of_regA fun _ => rfl, fun a b s ha hb => ?badB⟩
  case completes =>
    obtain ⟨hE, hG, hL, hhigh⟩ := compareFlags_bits (s.reg a) (s.reg b)
    exact ⟨_, execCmp_regByte a b s, hE, hG, hL, hhigh, advancesPc_of_pc_eq (by decide) rfl, fun _ => rfl, fun _ => rfl,
      rfl, rfl, rfl⟩
  case badB =>
    obtain ⟨r, rfl⟩ := exists_regByte ha
    exact exec_badB rfl rfl hb s

end

/-! Output, the stack and control flow: PRN, PUSH, POP, CALL, RET and the jumps (42_data_io.md, 43_stack.md, 44_control_flow.md),
and what they do one after the other. -/

namespace Sys2Proof.Machine

/-! ### The stack pointer over naturals -/

theorem lowered_toNat (v : Byte) : (v - 1).toNat = (v.toNat + 255) % 256 := by
  have h : (v - 1).toNat = (2 ^ 8 - 1 + v.toNat) % 2 ^ 8 := BitVec.toNat_sub v 1#8
  omega

theorem raised_toNat (v : Byte) : (v + 1).toNat = (v.toNat + 1) % 256 := BitVec.toNat_add v 1#8

/-- POP's stack pointer, its exception at the empty position included (43_stack.md R152). -/
theorem poppedSp_toNat (v : Byte) :
    (if v = Config.spInit then v else v + 1).toNat = if v.toNat = 0xF3 then 0xF3 else (v.toNat + 1) % 256 := by
  have hiff : v = Config.spInit ↔ v.toNat = 0xF3 := BitVec.toNat_inj.symm
  by_cases h : v = Config.spInit
  · rw [if_pos h, if_pos (hiff.mp h), hiff.mp h]
  · rw [if_neg h, if_neg fun hv => h (hiff.mpr hv), raised_toNat]

/-- POP undoes PUSH's decrement, but for the one that reached the empty position (90_conflicts.md C4). -/
theorem poppedSp_lowered {v : Byte} (h : v ≠ 0xF4#8) :
    (if v - 1 = Config.spInit then v - 1 else v - 1 + 1) = v := by
  have hne : v - 1 ≠ Config.spInit := fun hv => h (sub_eq_iff_eq_add.mp hv)
  rw [if_neg hne, BitVec.sub_add_cancel]

/-! ### The stack cell that is written -/

/-- A push writes the cell at the lowered sp and no other, whatever else its instruction does to pc. -/
theorem byteAt_pushed {s t : State} {v : Byte} (h : t.mem = Memory.write s.mem (s.sp - 1).toNat v) :
    t.byteAt (s.sp - 1).toNat = v := by
  rw [State.byteAt_eq, h, Memory.read_write_same]

theorem keepsMemBut_pushed {s t : State} {v : Byte} (h : t.mem = Memory.write s.mem (s.sp - 1).toNat v) :
    KeepsMemBut (s.sp - 1).toNat s t := by
  intro addr haddr
  rw [State.byteAt_eq, h, Memory.read_write_other _ _ _ _ haddr, State.byteAt_eq]

/-- The address CALL stores is that of the next instruction (44_control_flow.md R160). -/
theorem returnAddress_toNat {pc : Pc} (h : pc.toNat ≤ 253) : (u8 (pc.toNat + 2)).toNat = pc.toNat + 2 := by
  rw [u8_toNat]
  omega

/-! ### Instructions one after the other -/

theorem onlyPc_jump (s : State) (target : Byte) : OnlyPc s (s.jump target) :=
  ⟨fun _ => rfl, fun _ => rfl, rfl, rfl, rfl, rfl⟩

theorem onlyPc_advance (s : State) (len : Nat) : OnlyPc s (s.advance len) :=
  ⟨fun _ => rfl, fun _ => rfl, rfl, rfl, rfl, rfl⟩

/-- A jump to pc's own address changes nothing (44_control_flow.md R164). -/
theorem jump_self {s : State} {target : Byte} (h : target.toNat = s.pc.toNat) : s.jump target = s := by
  have hpc : zextPc target = s.pc := BitVec.eq_of_toNat_eq ((zextPc_toNat target).trans h)
  rw [State.jump, hpc]

/-- A core whose step leads back to its own state stays there. -/
theorem runFor_of_step_self {s : State} (h : step s = .next s) (n : Nat) : runFor n s = s := by
  induction n with
  | zero => rfl
  | succ n ih => rw [runFor_succ n h, ih]

theorem fetches_of_decode {s : State} {op0 op1 : Byte} {i : Instr} (hready : s.Ready) (h0 : s.byteAt s.pc.toNat = op0)
    (h1 : s.byteAt (s.pc.toNat + 1) = op1) (hdecode : ∀ op2, decodeWindow op0 op1 op2 = .ok i) : s.Fetches i := by
  refine ⟨hready, ?_⟩
  rw [h0, h1]
  exact hdecode _

/-- Instructions but CMP, one after the other, keep the flags (10_state.md R27). -/
theorem execAll_fl_of_not_cmp {body : List Instr} (hbody : ∀ i ∈ body, i.isCmp = false) {s t : State}
    (h : execAll body s = .next t) : t.fl = s.fl := by
  induction body generalizing s with
  | nil =>
    obtain rfl := Host.Outcome.next.inj h
    rfl
  | cons i rest ih =>
    unfold execAll at h
    split at h
    · next u hu =>
      have hrest := ih (fun j hj => hbody j (List.mem_cons_of_mem i hj)) h
      exact hrest.trans (exec_fl_of_not_cmp (hbody i List.mem_cons_self) hu)
    · cases h
    · cases h

/-- After a completed CMP the flag E says whether its operands were equal. -/
theorem exec_cmp_isE {a b : RegIdx} {s t : State} (h : exec (.cmp (regByte a) (regByte b)) s = .next t) :
    t.isE = decide (s.reg a = s.reg b) := by
  obtain rfl := Host.Outcome.next.inj ((execCmp_regByte a b s).symm.trans h)
  exact (compareFlags_bits _ _).1

end Sys2Proof.Machine

section
open Sys2Proof Sys2Proof.Machine

/-- Settles O32: PRN emits its register's value and advances pc. -/
theorem prnRule : Obligations.PrnRule :=
  ⟨fun _ _ => rfl, fun a s => ⟨_, execPrn_regByte a s, rfl, advancesPc_of_pc_eq (by decide) rfl, fun _ => rfl,
    fun _ => rfl, rfl, rfl, rfl⟩, faultsOnBadA_of_regA fun _ => rfl⟩

/-- Settles O33: PUSH writes one cell, at the lowered sp. -/
theorem pushRule : Obligations.PushRule :=
  ⟨fun _ _ => rfl, fun a s => ⟨_, execPush_regByte a s, lowered_toNat s.sp, byteAt_pushed rfl, rfl,
    keepsMemBut_pushed rfl, advancesPc_of_pc_eq (by decide) rfl, fun _ => rfl, rfl, rfl, rfl⟩,
    faultsOnBadA_of_regA fun _ => rfl⟩

/-- Settles O34: POP writes its register from the old sp, and raises sp unless it is at the empty position. -/
theorem popRule : Obligations.PopRule :=
  ⟨fun _ _ => rfl, fun a s => ⟨_, execPop_regByte a s, State.setReg_reg_same s a _, poppedSp_toNat s.sp,
    advancesPc_of_pc_eq (by decide) rfl, fun r hr => State.setReg_reg_other s a r _ hr, fun _ => rfl, rfl, rfl, rfl⟩,
    faultsOnBadA_of_regA fun _ => rfl⟩

/-- Settles O35: CALL pushes the address of the next instruction and jumps. -/
theorem callRule : Obligations.CallRule := by
  refine ⟨fun _ _ => rfl, fun a s => ?_, faultsOnBadA_of_regA fun _ => rfl⟩
  refine ⟨_, execCall_regByte a s, zextPc_toNat _, lowered_toNat s.sp, fun hpc => ?_, keepsMemBut_pushed rfl,
    fun _ => rfl, rfl, rfl, rfl⟩
  rw [byteAt_pushed rfl, returnAddress_toNat hpc]

/-- Settles O36: RET jumps to the byte on top of the stack and raises sp. -/
theorem retRule : Obligations.RetRule :=
  ⟨fun _ _ => rfl, fun s => ⟨_, execRet_eq s, zextPc_toNat _, raised_toNat s.sp, fun _ => rfl, fun _ => rfl, rfl, rfl,
    rfl⟩⟩

/-- Settles O37: a jump writes pc alone; one to its own address is no change, one to 254 or 255 lands where no fetch succeeds. -/
theorem jmpRule : Obligations.JmpRule := by
  refine ⟨fun _ _ => rfl, fun a s => ⟨_, execJmp_regByte a s, zextPc_toNat _, onlyPc_jump s _⟩,
    fun a s n hready h0 h1 hself => ?selfLoop, fun a s t hrun hhigh h => ?fetchFault, faultsOnBadA_of_regA fun _ => rfl⟩
  case selfLoop =>
    have hfetch := fetches_of_decode hready h0 h1 fun _ => rfl
    have hstep : step s = .next (s.jump (s.reg a)) := (step_of_fetches hfetch).trans (execJmp_regByte a s)
    rw [jump_self hself] at hstep
    exact runFor_of_step_self hstep n
  case fetchFault =>
    obtain rfl := Host.Outcome.next.inj ((execJmp_regByte a s).symm.trans h)
    have hpc : (s.jump (s.reg a)).pc.toNat = (s.reg a).toNat := zextPc_toNat _
    have hlowest : max 256 (s.jump (s.reg a)).pc.toNat = 256 := by
      have := (s.reg a).isLt
      omega
    have hstep := step_fetch_fault (s := s.jump (s.reg a)) hrun (by omega)
    rwa [hlowest] at hstep

/-- Settles O38: E decides between the jump and the advance, and either writes pc alone. -/
theorem jeqRule : Obligations.JeqRule := by
  refine ⟨fun _ _ => rfl, fun a s => ?_, faultsOnBadA_of_regA fun _ => rfl⟩
  cases hE : s.isE with
  | false => exact ⟨_, exec_jeq_untaken hE a, nofun, fun _ => advancesPc_of_pc_eq (by decide) rfl, onlyPc_advance s 2⟩
  | true => exact ⟨_, exec_jeq_taken hE a, fun _ => zextPc_toNat _, nofun, onlyPc_jump s _⟩

/-- Settles O39: E decides between the advance and the jump, and either writes pc alone. -/
theorem jneRule : Obligations.JneRule := by
  refine ⟨fun _ _ => rfl, fun a s => ?_, faultsOnBadA_of_regA fun _ => rfl⟩
  cases hE : s.isE with
  | false => exact ⟨_, exec_jne_taken hE a, fun _ => zextPc_toNat _, nofun, onlyPc_jump s _⟩
  | true => exact ⟨_, exec_jne_untaken hE a, nofun, fun _ => advancesPc_of_pc_eq (by decide) rfl, onlyPc_advance s 2⟩

/-- Settles O45: POP reads the cell PUSH wrote, and undoes the decrement unless that reached the empty position. -/
theorem stackRoundTrip : Obligations.StackRoundTrip := by
  intro r r' s
  refine ⟨_, _, execPush_regByte r s, execPop_regByte r' _, ?value, poppedSp_lowered, fun hsp => ?empty,
    fun k hk => State.setReg_reg_other _ r' k _ hk⟩
  case value => exact (State.setReg_reg_same _ r' _).trans (byteAt_pushed rfl)
  case empty => simp [hsp, Config.spInit]

/-- Settles O46: RET reads the cell CALL wrote and undoes the decrement. -/
theorem callReturnRoundTrip : Obligations.CallReturnRoundTrip := by
  intro a s hpc
  refine ⟨_, execCall_regByte a s, fun u hsp htop => ⟨_, execRet_eq u, ?pc, ?sp⟩⟩
  case pc =>
    have htop : u.byteAt u.sp.toNat = u8 (s.pc.toNat + 2) := htop.trans (byteAt_pushed rfl)
    exact (zextPc_toNat _).trans (by rw [htop, returnAddress_toNat hpc])
  case sp =>
    have hsp : u.sp = s.sp - 1 := hsp
    exact (congrArg (· + 1) hsp).trans (BitVec.sub_add_cancel _ _)

/-- Settles O47: E says whether the operands were equal, and the instructions in between keep it. -/
theorem compareThenBranch : Obligations.CompareThenBranch := by
  intro a b target body s hbody
  refine ⟨_, execCmp_regByte a b s, fun u hu => ?_⟩
  have hE : u.isE = decide (s.reg a = s.reg b) := by
    rw [State.isE, execAll_fl_of_not_cmp hbody hu]
    exact exec_cmp_isE (execCmp_regByte a b s)
  by_cases heq : s.reg a = s.reg b
  · have htaken : u.isE = true := hE.trans (decide_eq_true heq)
    exact ⟨_, exec_jeq_taken htaken target, fun _ => zextPc_toNat _, fun hne => absurd heq hne⟩
  · have huntaken : u.isE = false := hE.trans (decide_eq_false heq)
    exact ⟨_, exec_jeq_untaken huntaken target, fun h => absurd h heq, fun _ => advancesPc_of_pc_eq (by decide) rfl⟩

/-- Settles O48: the operand byte is latched before the push overwrites its cell. -/
theorem callOverItsOwnOperand : Obligations.CallOverItsOwnOperand := by
  intro a s hready h0 h1 hsp
  have hfetch := fetches_of_decode hready h0 h1 fun _ => rfl
  refine ⟨_, (step_of_fetches hfetch).trans (execCall_regByte a s), zextPc_toNat _, ?_⟩
  have hcell : s.pc.toNat + 1 = (s.sp - 1).toNat := by
    have hpc := hready.2
    rw [lowered_toNat]
    omega
  rw [hcell, byteAt_pushed rfl, returnAddress_toNat hready.2]

/-- Settles O49: a later fetch reads the cell the push wrote. -/
theorem fetchSeesPushedByte : Obligations.FetchSeesPushedByte := by
  intro a s
  refine ⟨_, execPush_regByte a s, fun u hmem hsp hpc => ?_⟩
  have hpushed : u.byteAt u.pc.toNat = s.reg a := by
    rw [hmem, hsp]
    exact byteAt_pushed rfl
  have hfetch := fetch_ok hpc
  rw [hpushed] at hfetch
  exact ⟨_, _, hfetch⟩

end

/-! Memory as data, launches and runs: the canonical list, the image a load writes, the one order of the transactions, and what holds
along every run (20_memory.md section 1; 70_reset_and_hazards.md sections 1 and 4; 40_loop_dispatch.md section 4). -/

namespace Sys2Proof.Machine

/-! ### The canonical list has one form -/

/-- Of two canonical memories that read the same, neither begins below the other. -/
theorem Memory.head_le_of_read_eq {c d : Host.Cell} {m n : Memory} (hm : Memory.wf (c :: m)) (hn : Memory.wf (d :: n))
    (hread : ∀ a, a < 256 → Memory.read (c :: m) a = Memory.read (d :: n) a) : d.1 ≤ c.1 := by
  by_contra hlt
  obtain ⟨hc, hcv⟩ := hm.2 c List.mem_cons_self
  have hgt : ∀ e ∈ d :: n, c.1 < e.1 := by
    intro e he
    obtain rfl | he := List.mem_cons.mp he
    · omega
    · exact (Nat.not_le.mp hlt).trans (List.rel_of_pairwise_cons hn.1 he)
  have hunwritten := (hread c.1 hc).trans (Memory.read_of_forall_gt hgt)
  rw [Memory.read_cons, if_pos rfl] at hunwritten
  exact hcv hunwritten

theorem Memory.wf_tail {c : Host.Cell} {m : Memory} (h : Memory.wf (c :: m)) : Memory.wf m :=
  ⟨h.1.tail, fun d hd => h.2 d (List.mem_cons_of_mem c hd)⟩

/-- An address listed first is not listed again. -/
theorem Memory.read_tail_head {c : Host.Cell} {m : Memory} (h : Memory.wf (c :: m)) :
    Memory.read m c.1 = Config.unwrittenByte :=
  Memory.read_of_forall_gt fun _ hd => List.rel_of_pairwise_cons h.1 hd

/-- A canonical memory that reads as unwritten everywhere lists nothing. -/
theorem Memory.eq_nil_of_read {m : Memory} (hm : Memory.wf m)
    (hread : ∀ a, a < 256 → Memory.read m a = Config.unwrittenByte) : m = [] := by
  cases m with
  | nil => rfl
  | cons c m =>
    obtain ⟨hc, hcv⟩ := hm.2 c List.mem_cons_self
    have hunwritten := hread c.1 hc
    rw [Memory.read_cons, if_pos rfl] at hunwritten
    exact absurd hunwritten hcv

theorem Memory.eq_of_read_eq {m n : Memory} (hm : Memory.wf m) (hn : Memory.wf n)
    (hread : ∀ a, a < 256 → Memory.read m a = Memory.read n a) : m = n := by
  induction m generalizing n with
  | nil => exact (Memory.eq_nil_of_read hn fun a ha => (hread a ha).symm).symm
  | cons c m ih =>
    cases n with
    | nil => exact Memory.eq_nil_of_read hm hread
    | cons d n =>
      have haddr : c.1 = d.1 := Nat.le_antisymm
        (Memory.head_le_of_read_eq hn hm fun a ha => (hread a ha).symm) (Memory.head_le_of_read_eq hm hn hread)
      have hvalue : c.2 = d.2 := by
        have hhead := hread c.1 (hm.2 c List.mem_cons_self).1
        rwa [Memory.read_cons, Memory.read_cons, if_pos rfl, if_pos haddr.symm] at hhead
      have htail : m = n := by
        refine ih (Memory.wf_tail hm) (Memory.wf_tail hn) fun a ha => ?_
        by_cases hac : c.1 = a
        · subst hac
          rw [Memory.read_tail_head hm, haddr, Memory.read_tail_head hn]
        · have hrest := hread a ha
          rwa [Memory.read_cons, Memory.read_cons, if_neg hac, if_neg (haddr ▸ hac)] at hrest
      rw [Prod.ext haddr hvalue, htail]

/-! ### Launches -/

/-- The memory a load leaves: the image from `LOAD_BASE` upward in an unwritten array (70_reset_and_hazards.md R201). -/
theorem read_loaded (img : List Byte) (addr : Nat) :
    Memory.read (Memory.writeFrom State.reset.mem Config.loadBase img) addr = (img[addr]?).getD 0x00#8 := by
  have hbase : Config.loadBase ≤ addr := Nat.zero_le addr
  rw [Memory.read_writeFrom, if_pos hbase]
  rfl

theorem wf_loaded {img : List Byte} (h : img.length ≤ Config.memSize) :
    Memory.wf (Memory.writeFrom State.reset.mem Config.loadBase img) :=
  Memory.writeFrom_wf Memory.wf_nil img ((Nat.zero_add _).trans_le h)

/-- A started session takes the core's steps and no other transaction. -/
theorem transact_started_iff {s : State} {m : Transaction} {y : Session} :
    transact m (.started s) = .next y ↔ m = .step ∧ ∃ t, step s = .next t ∧ y = .started t := by
  constructor
  · intro h
    cases m with
    | load img => cases h
    | start => cases h
    | step =>
      rw [transact_step] at h
      obtain ⟨s', t, hs', hstep, rfl⟩ := sessionStep_cases h
      obtain rfl : s = s' := Session.started.inj hs'
      exact ⟨rfl, t, hstep, rfl⟩
  · rintro ⟨rfl, t, hstep, rfl⟩
    exact sessionStep_started hstep

/-- Once the run has begun nothing but steps of the core is allowed (70_reset_and_hazards.md R202). -/
theorem transactAll_started {ms : List Transaction} {s : State} {x : Session}
    (h : transactAll ms (.started s) = .next x) : ms = List.replicate ms.length .step ∧ x = .started (runFor ms.length s) := by
  induction ms generalizing s with
  | nil => exact ⟨rfl, (Host.Outcome.next.inj h).symm⟩
  | cons m rest ih =>
    obtain ⟨y, hy, hrest⟩ := transactAll_cons_cases h
    obtain ⟨rfl, t, hstep, rfl⟩ := transact_started_iff.mp hy
    obtain ⟨hms, hx⟩ := ih hrest
    rw [List.length_cons, List.replicate_succ, runFor_succ _ hstep, ← hms]
    exact ⟨rfl, hx⟩

/-- After the Load comes nothing, or the Start and then steps. -/
theorem transactAll_loaded {ms : List Transaction} {mem : Memory} {x : Session}
    (h : transactAll ms (.loaded mem) = .next x) : (ms = [] ∧ x = .loaded mem) ∨
    ∃ n, ms = .start :: List.replicate n .step ∧ x = .started (runFor n { State.reset with mem := mem }) := by
  cases ms with
  | nil => exact .inl ⟨rfl, (Host.Outcome.next.inj h).symm⟩
  | cons m rest =>
    obtain ⟨y, hy, hrest⟩ := transactAll_cons_cases h
    cases m with
    | load img => cases hy
    | step => cases hy
    | start =>
      obtain rfl := Host.Outcome.next.inj hy
      obtain ⟨hms, hx⟩ := transactAll_started hrest
      exact .inr ⟨rest.length, congrArg _ hms, hx⟩

/-! ### Runs -/

/-- One more step at the end of a run. -/
theorem runFor_succ_of_step {s t : State} {n : Nat} (h : step (runFor n s) = .next t) : runFor (n + 1) s = t := by
  rw [runFor_add, runFor_succ 0 h, runFor_zero]

/-- A run that has ended stands in its final state however long it goes on. -/
theorem runFor_after_end {s t : State} {k m : Nat} (h : step (runFor k s) = .next t) (hend : t.run ≠ .running)
    (hkm : k < m) : runFor m s = t := by
  obtain ⟨d, rfl⟩ := Nat.exists_eq_add_of_le (Nat.succ_le_of_lt hkm)
  rw [runFor_add, runFor_succ_of_step h, runFor_ended hend]

/-- How a step ends a run: by HALT, with status 0, or by a fault whose cause is true of the state before it. -/
def EndsRun (s t : State) : Prop :=
  (t = { s with run := .halted } ∧ s.pc.toNat ≤ 253 ∧ s.byteAt s.pc.toNat = 0x01#8 ∧
    status t = some { exit := 0, diagnostic := none }) ∨
  ∃ f : FaultRecord, t = { s with run := .faulted f } ∧ FaultCause s f ∧ Config.exitFault f.code ≠ 0 ∧
    status t = some { exit := Config.exitFault f.code, diagnostic := some f }

/-- A running core has a next state, in which it still runs or its run has ended. -/
theorem step_runs_or_ends {s : State} (hrun : s.run = .running) :
    ∃ t, step s = .next t ∧ (t.run = .running ∨ (t.run ≠ .running ∧ EndsRun s t)) := by
  obtain ⟨t, ht, -⟩ := stepHasThreeOutcomes s hrun
  refine ⟨t, ht, ?_⟩
  cases hend : t.run with
  | running => exact .inl rfl
  | halted =>
    refine .inr ⟨nofun, .inl ?_⟩
    obtain ⟨i, hi, hdone⟩ | ⟨f, -, rfl⟩ := step_cases ht
    · obtain ⟨hhalt, hpc, hb⟩ := hdone.halted hi hend
      exact ⟨hhalt, hpc, hb, status_halted hend⟩
    · cases hend
  | faulted f =>
    obtain ⟨hcause, hfault⟩ := step_faulted ht hend
    exact .inr ⟨nofun, .inr ⟨f, hfault, hcause, exitFault_ne_zero _, status_faulted hend⟩⟩

/-- Each of the first n steps leaves a core running, or one of them ends its run for good. -/
theorem runFor_runs_or_ends (n : Nat) {s : State} (hrun : s.run = .running) :
    (∀ k, k ≤ n → (runFor k s).run = .running) ∨
    ∃ k t, k < n ∧ (runFor k s).run = .running ∧ (∀ m, k < m → runFor m s = t) ∧ EndsRun (runFor k s) t := by
  induction n with
  | zero =>
    refine .inl fun k hk => ?_
    obtain rfl := Nat.le_zero.mp hk
    exact hrun
  | succ n ih =>
    obtain hruns | ⟨k, t, hk, hends⟩ := ih
    · obtain ⟨t, ht, hgoes | ⟨hend, hends⟩⟩ := step_runs_or_ends (hruns n le_rfl)
      · refine .inl fun k hk => ?_
        obtain hk | rfl := Nat.le_succ_iff.mp hk
        · exact hruns k hk
        · rwa [runFor_succ_of_step ht]
      · exact .inr ⟨n, t, Nat.lt_succ_self n, hruns n le_rfl, fun m hm => runFor_after_end ht hend hm, hends⟩
    · exact .inr ⟨k, t, hk.trans (Nat.lt_succ_self n), hends⟩

/-- A step emits at most one value, after what was emitted before. -/
theorem step_out {s t : State} (h : step s = .next t) : ∃ later, t.out = s.out ++ later ∧ later.length ≤ 1 := by
  obtain ⟨i, -, hdone⟩ | ⟨f, -, rfl⟩ := step_cases h
  · obtain hkept | ⟨r, -, hemitted⟩ := hdone.out_cases
    · exact ⟨[], by rw [hkept, List.append_nil], Nat.zero_le 1⟩
    · exact ⟨[s.reg r], hemitted, le_rfl⟩
  · exact ⟨[], (List.append_nil _).symm, Nat.zero_le 1⟩

theorem runFor_out (n : Nat) (s : State) : ∃ later, (runFor n s).out = s.out ++ later ∧ later.length ≤ n := by
  induction n generalizing s with
  | zero => exact ⟨[], (List.append_nil _).symm, le_rfl⟩
  | succ n ih =>
    by_cases h : ∃ t, step s = .next t
    · obtain ⟨t, ht⟩ := h
      obtain ⟨first, hfirst, hlen⟩ := step_out ht
      obtain ⟨later, hlater, hlen'⟩ := ih t
      refine ⟨first ++ later, ?_, ?_⟩
      · rw [runFor_succ n ht, hlater, hfirst, List.append_assoc]
      · rw [List.length_append]
        omega
    · rw [runFor_stopped (fun t ht => h ⟨t, ht⟩)]
      exact ⟨[], (List.append_nil _).symm, Nat.zero_le _⟩

/-! ### The invariant along runs and launches -/

/-- The state a machine starts in: as after reset, with canonical memory. -/
theorem inv_reset_with {mem : Memory} (h : Memory.wf mem) : State.Inv { State.reset with mem := mem } where
  memory := h
  pcRange := Nat.zero_le _
  flags := .inl rfl
  halted := nofun
  faulted := nofun

theorem inv_runFor (n : Nat) {s : State} (h : State.Inv s) : State.Inv (runFor n s) := by
  induction n generalizing s with
  | zero => exact h
  | succ n ih =>
    by_cases hstep : ∃ t, step s = .next t
    · obtain ⟨t, ht⟩ := hstep
      rw [runFor_succ n ht]
      exact ih (inv_step h ht)
    · rwa [runFor_stopped fun t ht => hstep ⟨t, ht⟩]

theorem inv_transact {m : Transaction} {x y : Session} (hx : State.Inv x.state) (h : transact m x = .next y) :
    State.Inv y.state := by
  cases m with
  | load img =>
    obtain ⟨-, hlen, rfl⟩ := load_cases h
    exact inv_reset_with (wf_loaded hlen)
  | start =>
    obtain ⟨mem, rfl, rfl⟩ := start_cases h
    exact hx
  | step =>
    obtain ⟨s, t, rfl, hstep, rfl⟩ := sessionStep_cases h
    exact inv_step hx hstep

theorem inv_transactAll {ms : List Transaction} {x y : Session} (hx : State.Inv x.state)
    (h : transactAll ms x = .next y) : State.Inv y.state := by
  induction ms generalizing x with
  | nil =>
    obtain rfl := Host.Outcome.next.inj h
    exact hx
  | cons m rest ih =>
    obtain ⟨z, hz, hrest⟩ := transactAll_cons_cases h
    exact ih (inv_transact hx hz) hrest

/-! ### A placed table word -/

/-- A placed window stands where the next step fetches (log 12). -/
theorem placeWindow_ready (s : State) (window : List Byte) : (placeWindow s window).Ready := by
  refine ⟨rfl, ?_⟩
  unfold placeWindow
  dsimp only
  split
  · assumption
  · decide

theorem placeWindow_byteAt (s : State) (window : List Byte) {k : Nat} {v : Byte} (h : window[k]? = some v) :
    (placeWindow s window).byteAt ((placeWindow s window).pc.toNat + k) = v := by
  rw [State.byteAt_eq, placeWindow]
  dsimp only
  rw [Memory.read_writeFrom, if_pos (Nat.le_add_right _ _), Nat.add_sub_cancel_left, h, Option.getD_some]

theorem decode_of_decodeTableWord {nbits w : Nat} {i : Instr} (h : decodeTableWord nbits w = some i) :
    decode (tableWindow nbits w) = .ok i := by
  unfold decodeTableWord at h
  cases hdecode : decode (tableWindow nbits w) with
  | ok j =>
    rw [hdecode] at h
    exact congrArg _ (Option.some.inj h)
  | error e =>
    rw [hdecode] at h
    cases h

theorem withFetchWord_fetches {nbits w : Nat} {i : Instr} (h : decodeTableWord nbits w = some i) (s : State) :
    (s.withFetchWord nbits w).Fetches i := by
  have hbyte : ∀ {k : Nat} {v : Byte}, (tableWindow nbits w)[k]? = some v →
      (s.withFetchWord nbits w).byteAt ((s.withFetchWord nbits w).pc.toNat + k) = v := placeWindow_byteAt s _
  refine ⟨placeWindow_ready s _, ?_⟩
  rw [hbyte (k := 1) rfl, hbyte (k := 2) rfl]
  exact (congrArg (decodeWindow · _ _) (hbyte (k := 0) rfl)).trans (decode_of_decodeTableWord h)

end Sys2Proof.Machine

section
open Sys2Proof Sys2Proof.Machine

/-- Settles O1: the values are those `State.reset` writes down. -/
theorem resetValues : Obligations.ResetValues :=
  ⟨fun _ => rfl, State.reset_reg, rfl, rfl, rfl, rfl, rfl⟩

/-- Settles O2: reset is a start state with the empty memory list. -/
theorem resetMeetsInvariant : Obligations.ResetMeetsInvariant :=
  inv_reset_with Memory.wf_nil

/-- Settles O4: a load writes the image from address 0 into an unwritten array, or is refused for its length. -/
theorem loadWritesImage : Obligations.LoadWritesImage :=
  ⟨fun img hlen => ⟨_, load_constructed hlen, read_loaded img, wf_loaded hlen, rfl⟩,
    fun _ hlen => load_too_long (Nat.not_le.mpr hlen)⟩

/-- Settles O20: status, exit number and final state are read off `run`. -/
theorem exitStatusOfTheRun : Obligations.ExitStatusOfTheRun := by
  intro s
  refine ⟨fun h => ?_, fun h => ?_, fun f h => ⟨exitFault_ne_zero _, exitStatus_faulted h, status_faulted h⟩,
    fun _ _ h => exitStatus_faulted h, fun _ _ h => exitStatus_faulted h, fun _ _ h => exitStatus_faulted h,
    fun _ _ _ h => exitStatus_faulted h, status_halted, ⟨fun hnone => ?_, status_running⟩, finalState_running,
    finalState_ended⟩
  · rw [exitStatus, status_running h, Option.map_none]
  · rw [exitStatus, status_halted h, Option.map_some]
  · cases h : s.run with
    | running => rfl
    | halted => simp [status_halted h] at hnone
    | faulted f => simp [status_faulted h] at hnone

/-- Settles O50: an access in range reads or writes its cell, one out of range raises. -/
theorem memoryAccesses : Obligations.MemoryAccesses := by
  refine ⟨fun a s ha => memRead_ok (Nat.lt_succ_of_le ha), fun a s ha => memRead_bad (Nat.not_lt.mpr ha),
    fun a v s ha => ?write, fun a v s ha => memWrite_bad (Nat.not_lt.mpr ha)⟩
  have ha : a < Config.memSize := Nat.lt_succ_of_le ha
  exact ⟨_, memWrite_ok ha, Memory.read_write_same s.mem a v, fun addr hne => Memory.read_write_other s.mem a addr v hne,
    rfl, fun hwf => Memory.write_wf hwf ha v⟩

/-- Settles O51: canonical lists that read the same begin with the same cell, and so do their tails. -/
theorem canonicalMemoryIsUnique : Obligations.CanonicalMemoryIsUnique :=
  fun _ _ => Memory.eq_of_read_eq

/-- Settles O52: induction on the number of steps; the last one leaves the core running or ends the run. -/
theorem runEndsByHaltOrFault : Obligations.RunEndsByHaltOrFault := by
  intro n s hrun
  obtain hruns | hends := runFor_runs_or_ends n hrun
  · exact .inl fun k hk => ⟨hruns k hk, status_running (hruns k hk)⟩
  · exact .inr hends

/-- Settles O53: each step appends at most one value. -/
theorem runNeverRetractsOutput : Obligations.RunNeverRetractsOutput :=
  runFor_out

/-- Settles O54: every step keeps the invariant, and the host's two moves lead to start states. -/
theorem runKeepsInvariant : Obligations.RunKeepsInvariant :=
  ⟨fun n _ h => inv_runFor n h, fun _ _ _ hx h => inv_transact hx h,
    fun _ _ h => inv_transactAll (x := .constructed) (inv_reset_with Memory.wf_nil) h⟩

/-- Settles O55: the placed core is ready and its window is the table word's. -/
theorem placedTableWordRuns : Obligations.PlacedTableWordRuns :=
  fun s _ _ _ h => step_of_fetches (withFetchWord_fetches h s)

/-- Settles O56: each transaction is refused in every session but the one before it. -/
theorem transactionsHaveOnePlace : Obligations.TransactionsHaveOnePlace := by
  refine ⟨fun img x hx => ?load, fun mem => ⟨_, start_loaded mem, rfl, rfl, rfl⟩, fun x hx => ?start, fun x hx => ?step,
    fun _ _ _ => transact_started_iff⟩
  case load =>
    cases x with
    | constructed => exact absurd rfl hx
    | loaded mem => rfl
    | started s => rfl
  case start =>
    cases x with
    | constructed => rfl
    | loaded mem => exact absurd rfl (hx mem)
    | started s => rfl
  case step =>
    cases x with
    | constructed => rfl
    | loaded mem => rfl
    | started s => exact absurd rfl (hx s)

/-- Settles O57: from construction only a Load is allowed, after it only the Start, and after that only steps. -/
theorem everyLaunchIsLoadStartRun : Obligations.EveryLaunchIsLoadStartRun := by
  intro ms x h
  cases ms with
  | nil => exact .inl ⟨rfl, (Host.Outcome.next.inj h).symm⟩
  | cons m rest =>
    obtain ⟨y, hy, hrest⟩ := transactAll_cons_cases h
    cases m with
    | start => cases hy
    | step => cases hy
    | load img =>
      rw [transact_load] at hy
      obtain ⟨-, hlen, rfl⟩ := load_cases hy
      refine .inr ⟨img, hlen, _, load_constructed hlen, ?_⟩
      obtain ⟨rfl, hx⟩ | ⟨n, rfl, hx⟩ := transactAll_loaded hrest
      · exact .inl ⟨rfl, hx⟩
      · exact .inr ⟨n, rfl, hx⟩

end
